-- ==== Sys2Proof/Word.lean ====
section
/-! DEFINITION. The word types of the machine (spec/10_state.md R10, spec/30_encoding.md R61). -/

namespace Sys2Proof

/-- A 4-bit field: a register index, a key index, a sprite height (R61). -/
abbrev Nibble := BitVec 4

/-- An 8-bit value: a register, a timer, a memory byte, an immediate `nn` (R11, R17, R40). -/
abbrev Byte := BitVec 8

/-- A 12-bit immediate address `nnn` (R61, R63). -/
abbrev Addr := BitVec 12

/-- A 16-bit value: PC, I, a stack slot, an instruction word (R13, R14, R16, R60). -/
abbrev Half := BitVec 16

end Sys2Proof
end

