-- ==== Sys2Proof/Syntax.lean ====
section
/-! DEFINITION. The 34 instructions, one constructor per row of spec/opcode_table.json (spec/30_encoding.md R64). -/

namespace Sys2Proof

/-- An instruction with its operand fields (R61 to R64), in the table's order. -/
inductive Instr where
  /-- `00E0` CLS (R130) -/
  | cls
  /-- `00EE` RET (R90) -/
  | ret
  /-- `1nnn` JP addr (R91) -/
  | jpAddr (nnn : Addr)
  /-- `2nnn` CALL addr (R92) -/
  | callAddr (nnn : Addr)
  /-- `3xnn` SE Vx,byte (R94) -/
  | seVxByte (x : Nibble) (nn : Byte)
  /-- `4xnn` SNE Vx,byte (R95) -/
  | sneVxByte (x : Nibble) (nn : Byte)
  /-- `5xy0` SE Vx,Vy (R96) -/
  | seVxVy (x y : Nibble)
  /-- `9xy0` SNE Vx,Vy (R97) -/
  | sneVxVy (x y : Nibble)
  /-- `6xnn` LD Vx,byte (R101) -/
  | ldVxByte (x : Nibble) (nn : Byte)
  /-- `7xnn` ADD Vx,byte (R102) -/
  | addVxByte (x : Nibble) (nn : Byte)
  /-- `8xy0` LD Vx,Vy (R103) -/
  | ldVxVy (x y : Nibble)
  /-- `8xy1` OR Vx,Vy (R104) -/
  | orVxVy (x y : Nibble)
  /-- `8xy2` AND Vx,Vy (R105) -/
  | andVxVy (x y : Nibble)
  /-- `8xy3` XOR Vx,Vy (R106) -/
  | xorVxVy (x y : Nibble)
  /-- `8xy4` ADD Vx,Vy (R107) -/
  | addVxVy (x y : Nibble)
  /-- `8xy5` SUB Vx,Vy (R108) -/
  | subVxVy (x y : Nibble)
  /-- `8xy7` SUBN Vx,Vy (R110) -/
  | subnVxVy (x y : Nibble)
  /-- `8xy6` SHR Vx,(Vy): `y` is encoded and ignored (R109, R67) -/
  | shrVx (x y : Nibble)
  /-- `8xyE` SHL Vx,(Vy): `y` is encoded and ignored (R111, R67) -/
  | shlVx (x y : Nibble)
  /-- `Annn` LD I,addr (R120) -/
  | ldIAddr (nnn : Addr)
  /-- `Bnnn` JP V0,addr (R93) -/
  | jpV0Addr (nnn : Addr)
  /-- `Cxnn` RND Vx,byte (R112) -/
  | rndVxByte (x : Nibble) (nn : Byte)
  /-- `Dxyn` DRW Vx,Vy,N: `n = 0` is legal (R132, R67) -/
  | drwVxVyN (x y n : Nibble)
  /-- `Ex9E` SKP Vx (R143) -/
  | skpVx (x : Nibble)
  /-- `ExA1` SKNP Vx (R144) -/
  | sknpVx (x : Nibble)
  /-- `Fx07` LD Vx,DT (R140) -/
  | ldVxDT (x : Nibble)
  /-- `Fx15` LD DT,Vx (R141) -/
  | ldDTVx (x : Nibble)
  /-- `Fx18` LD ST,Vx (R142) -/
  | ldSTVx (x : Nibble)
  /-- `Fx1E` ADD I,Vx (R121) -/
  | addIVx (x : Nibble)
  /-- `Fx0A` LD Vx,K (R145) -/
  | ldVxK (x : Nibble)
  /-- `Fx29` LD F,Vx (R122) -/
  | ldFVx (x : Nibble)
  /-- `Fx33` LD B,Vx (R123) -/
  | ldBVx (x : Nibble)
  /-- `Fx55` LD [I],Vx (R124) -/
  | ldMemVx (x : Nibble)
  /-- `Fx65` LD Vx,[I] (R125) -/
  | ldVxMem (x : Nibble)
deriving DecidableEq, Repr

/-- The mnemonic of an instruction, as spec/opcode_table.json spells it. -/
def Instr.mnemonic : Instr → String
  | .cls => "CLS"
  | .ret => "RET"
  | .jpAddr _ => "JP_addr"
  | .callAddr _ => "CALL_addr"
  | .seVxByte _ _ => "SE_Vx_byte"
  | .sneVxByte _ _ => "SNE_Vx_byte"
  | .seVxVy _ _ => "SE_Vx_Vy"
  | .sneVxVy _ _ => "SNE_Vx_Vy"
  | .ldVxByte _ _ => "LD_Vx_byte"
  | .addVxByte _ _ => "ADD_Vx_byte"
  | .ldVxVy _ _ => "LD_Vx_Vy"
  | .orVxVy _ _ => "OR_Vx_Vy"
  | .andVxVy _ _ => "AND_Vx_Vy"
  | .xorVxVy _ _ => "XOR_Vx_Vy"
  | .addVxVy _ _ => "ADD_Vx_Vy"
  | .subVxVy _ _ => "SUB_Vx_Vy"
  | .subnVxVy _ _ => "SUBN_Vx_Vy"
  | .shrVx _ _ => "SHR_Vx__Vy"
  | .shlVx _ _ => "SHL_Vx__Vy"
  | .ldIAddr _ => "LD_I_addr"
  | .jpV0Addr _ => "JP_V0_addr"
  | .rndVxByte _ _ => "RND_Vx_byte"
  | .drwVxVyN _ _ _ => "DRW_Vx_Vy_N"
  | .skpVx _ => "SKP_Vx"
  | .sknpVx _ => "SKNP_Vx"
  | .ldVxDT _ => "LD_Vx_DT"
  | .ldDTVx _ => "LD_DT_Vx"
  | .ldSTVx _ => "LD_ST_Vx"
  | .addIVx _ => "ADD_I_Vx"
  | .ldVxK _ => "LD_Vx_K"
  | .ldFVx _ => "LD_F_Vx"
  | .ldBVx _ => "LD_B_Vx"
  | .ldMemVx _ => "LD__I__Vx"
  | .ldVxMem _ => "LD_Vx__I"

end Sys2Proof
end

