-- ==== Sys2Proof/WellFormed.lean ====
section
/-! DEFINITION. Which instruction words are well formed: the mask-and-match table of spec/30_encoding.md R64, kept apart
from the decoder, which follows the procedure of R65. -/

namespace Sys2Proof

/-- A row of the opcode table: `op` is the row's instruction when `(op & mask) = pattern` (R64). -/
structure OpcodeRow where
  mnemonic : String
  mask     : Half
  pattern  : Half
deriving DecidableEq, Repr

/-- Rows 1 to 19 of R64: classes 0 to 9. -/
def opcodeRowsLow : List OpcodeRow :=
  [⟨"CLS", 0xFFFF, 0x00E0⟩, ⟨"RET", 0xFFFF, 0x00EE⟩, ⟨"JP_addr", 0xF000, 0x1000⟩,
   ⟨"CALL_addr", 0xF000, 0x2000⟩, ⟨"SE_Vx_byte", 0xF000, 0x3000⟩, ⟨"SNE_Vx_byte", 0xF000, 0x4000⟩,
   ⟨"SE_Vx_Vy", 0xF00F, 0x5000⟩, ⟨"SNE_Vx_Vy", 0xF00F, 0x9000⟩, ⟨"LD_Vx_byte", 0xF000, 0x6000⟩,
   ⟨"ADD_Vx_byte", 0xF000, 0x7000⟩, ⟨"LD_Vx_Vy", 0xF00F, 0x8000⟩, ⟨"OR_Vx_Vy", 0xF00F, 0x8001⟩,
   ⟨"AND_Vx_Vy", 0xF00F, 0x8002⟩, ⟨"XOR_Vx_Vy", 0xF00F, 0x8003⟩, ⟨"ADD_Vx_Vy", 0xF00F, 0x8004⟩,
   ⟨"SUB_Vx_Vy", 0xF00F, 0x8005⟩, ⟨"SUBN_Vx_Vy", 0xF00F, 0x8007⟩, ⟨"SHR_Vx__Vy", 0xF00F, 0x8006⟩,
   ⟨"SHL_Vx__Vy", 0xF00F, 0x800E⟩]

/-- Rows 20 to 34 of R64: classes A to F. -/
def opcodeRowsHigh : List OpcodeRow :=
  [⟨"LD_I_addr", 0xF000, 0xA000⟩, ⟨"JP_V0_addr", 0xF000, 0xB000⟩, ⟨"RND_Vx_byte", 0xF000, 0xC000⟩,
   ⟨"DRW_Vx_Vy_N", 0xF000, 0xD000⟩, ⟨"SKP_Vx", 0xF0FF, 0xE09E⟩, ⟨"SKNP_Vx", 0xF0FF, 0xE0A1⟩,
   ⟨"LD_Vx_DT", 0xF0FF, 0xF007⟩, ⟨"LD_DT_Vx", 0xF0FF, 0xF015⟩, ⟨"LD_ST_Vx", 0xF0FF, 0xF018⟩,
   ⟨"ADD_I_Vx", 0xF0FF, 0xF01E⟩, ⟨"LD_Vx_K", 0xF0FF, 0xF00A⟩, ⟨"LD_F_Vx", 0xF0FF, 0xF029⟩,
   ⟨"LD_B_Vx", 0xF0FF, 0xF033⟩, ⟨"LD__I__Vx", 0xF0FF, 0xF055⟩, ⟨"LD_Vx__I", 0xF0FF, 0xF065⟩]

/-- The opcode table of R64, in its order. -/
def opcodeTable : List OpcodeRow := opcodeRowsLow ++ opcodeRowsHigh

/-- Whether a word is one of a row's. -/
def OpcodeRow.matchesWord (row : OpcodeRow) (w : Half) : Bool := w &&& row.mask == row.pattern

/-- A word is well formed when some row matches it; every other word is illegal (R66). -/
def wellFormedWord (w : Half) : Bool := opcodeTable.any (·.matchesWord w)

/-- Every operand value of every instruction is legal (R63: "every value is legal, including 15"; R67: `y` of SHR and SHL,
`n = 0` of DRW), and the fields' types hold exactly the values the encoding admits: no term of `Instr` is ill formed. -/
def Instr.WellFormed : Instr → Bool
  | .cls | .ret => true
  | .jpAddr _ | .callAddr _ | .ldIAddr _ | .jpV0Addr _ => true
  | .seVxByte _ _ | .sneVxByte _ _ | .ldVxByte _ _ | .addVxByte _ _ | .rndVxByte _ _ => true
  | .seVxVy _ _ | .sneVxVy _ _ | .ldVxVy _ _ | .orVxVy _ _ | .andVxVy _ _ | .xorVxVy _ _ => true
  | .addVxVy _ _ | .subVxVy _ _ | .subnVxVy _ _ | .shrVx _ _ | .shlVx _ _ => true
  | .drwVxVyN _ _ _ => true
  | .skpVx _ | .sknpVx _ => true
  | .ldVxDT _ | .ldDTVx _ | .ldSTVx _ | .addIVx _ | .ldVxK _ => true
  | .ldFVx _ | .ldBVx _ | .ldMemVx _ | .ldVxMem _ => true

end Sys2Proof
end

