-- ==== Sys2Proof/Decode.lean ====
section
/-! DEFINITION. The decoder (spec/30_encoding.md R61, R65, R66), byte order (spec/20_memory.md R41), and the encoder (R64). -/

namespace Sys2Proof

/-- The two bytes of a word, the one at the lower address the high half: big-endian (R41). -/
def joinBytes (hi lo : Byte) : Half := hi ++ lo

/-- The high half of a word: the byte at the lower address (R41). -/
def highByte (w : Half) : Byte := w.extractLsb' 8 8

/-- The low half of a word: the byte at the higher address (R41). -/
def lowByte (w : Half) : Byte := w.extractLsb' 0 8

/-- `class`, bits 15:12 (R61). -/
def fieldClass (op : Half) : Nibble := op.extractLsb' 12 4

/-- `x`, bits 11:8 (R61). -/
def fieldX (op : Half) : Nibble := op.extractLsb' 8 4

/-- `y`, bits 7:4 (R61). -/
def fieldY (op : Half) : Nibble := op.extractLsb' 4 4

/-- `n`, bits 3:0 (R61). -/
def fieldN (op : Half) : Nibble := op.extractLsb' 0 4

/-- `nn`, bits 7:0 (R61). -/
def fieldNN (op : Half) : Byte := op.extractLsb' 0 8

/-- `nnn`, bits 11:0 (R61). -/
def fieldNNN (op : Half) : Addr := op.extractLsb' 0 12

/-- Class 0: the two fixed words (R65). -/
def decodeClass0 (op : Half) : Option Instr :=
  if op = 0x00E0 then some .cls else if op = 0x00EE then some .ret else none

/-- Class 8: the register-to-register sub-opcodes (R65). -/
def decodeClass8 (x y n : Nibble) : Option Instr :=
  match n.toNat with
  | 0x0 => some (.ldVxVy x y)
  | 0x1 => some (.orVxVy x y)
  | 0x2 => some (.andVxVy x y)
  | 0x3 => some (.xorVxVy x y)
  | 0x4 => some (.addVxVy x y)
  | 0x5 => some (.subVxVy x y)
  | 0x6 => some (.shrVx x y)
  | 0x7 => some (.subnVxVy x y)
  | 0xE => some (.shlVx x y)
  | _ => none

/-- Class E: the key skips (R65). -/
def decodeClassE (x : Nibble) (nn : Byte) : Option Instr :=
  match nn.toNat with
  | 0x9E => some (.skpVx x)
  | 0xA1 => some (.sknpVx x)
  | _ => none

/-- Class F: timers, key wait, I and memory transfers (R65). -/
def decodeClassF (x : Nibble) (nn : Byte) : Option Instr :=
  match nn.toNat with
  | 0x07 => some (.ldVxDT x)
  | 0x0A => some (.ldVxK x)
  | 0x15 => some (.ldDTVx x)
  | 0x18 => some (.ldSTVx x)
  | 0x1E => some (.addIVx x)
  | 0x29 => some (.ldFVx x)
  | 0x33 => some (.ldBVx x)
  | 0x55 => some (.ldMemVx x)
  | 0x65 => some (.ldVxMem x)
  | _ => none

/-- Decode one word; `none` is "illegal" (R65). -/
def decodeWord (op : Half) : Option Instr :=
  let x := fieldX op
  let y := fieldY op
  let n := fieldN op
  let nn := fieldNN op
  let nnn := fieldNNN op
  match (fieldClass op).toNat with
  | 0x0 => decodeClass0 op
  | 0x1 => some (.jpAddr nnn)
  | 0x2 => some (.callAddr nnn)
  | 0x3 => some (.seVxByte x nn)
  | 0x4 => some (.sneVxByte x nn)
  | 0x5 => if n = 0 then some (.seVxVy x y) else none
  | 0x6 => some (.ldVxByte x nn)
  | 0x7 => some (.addVxByte x nn)
  | 0x8 => decodeClass8 x y n
  | 0x9 => if n = 0 then some (.sneVxVy x y) else none
  | 0xA => some (.ldIAddr nnn)
  | 0xB => some (.jpV0Addr nnn)
  | 0xC => some (.rndVxByte x nn)
  | 0xD => some (.drwVxVyN x y n)
  | 0xE => decodeClassE x nn
  | 0xF => decodeClassF x nn
  | _ => none

/-- Why bytes do not decode. -/
inductive Reject where
  /-- Fewer than two bytes: never met by a fetch, which always reads two (R60). The model's own name (log 9). -/
  | truncated
  /-- The word matches no instruction (R66). -/
  | illegal (w : Half)
deriving DecidableEq, Repr

/-- Decode the instruction at the head of a list of bytes, and give the bytes after it (R41, R60, R65). -/
def decode : List Byte → Except Reject (Instr × List Byte)
  | hi :: lo :: rest =>
    match decodeWord (joinBytes hi lo) with
    | some i => .ok (i, rest)
    | none => .error (.illegal (joinBytes hi lo))
  | _ => .error .truncated

/-- The word of an instruction, from the encodings of R64. -/
def encode : Instr → Half
  | .cls => 0x00E0
  | .ret => 0x00EE
  | .jpAddr nnn => 0x1#4 ++ nnn
  | .callAddr nnn => 0x2#4 ++ nnn
  | .seVxByte x nn => 0x3#4 ++ x ++ nn
  | .sneVxByte x nn => 0x4#4 ++ x ++ nn
  | .seVxVy x y => 0x5#4 ++ x ++ y ++ 0x0#4
  | .sneVxVy x y => 0x9#4 ++ x ++ y ++ 0x0#4
  | .ldVxByte x nn => 0x6#4 ++ x ++ nn
  | .addVxByte x nn => 0x7#4 ++ x ++ nn
  | .ldVxVy x y => 0x8#4 ++ x ++ y ++ 0x0#4
  | .orVxVy x y => 0x8#4 ++ x ++ y ++ 0x1#4
  | .andVxVy x y => 0x8#4 ++ x ++ y ++ 0x2#4
  | .xorVxVy x y => 0x8#4 ++ x ++ y ++ 0x3#4
  | .addVxVy x y => 0x8#4 ++ x ++ y ++ 0x4#4
  | .subVxVy x y => 0x8#4 ++ x ++ y ++ 0x5#4
  | .subnVxVy x y => 0x8#4 ++ x ++ y ++ 0x7#4
  | .shrVx x y => 0x8#4 ++ x ++ y ++ 0x6#4
  | .shlVx x y => 0x8#4 ++ x ++ y ++ 0xE#4
  | .ldIAddr nnn => 0xA#4 ++ nnn
  | .jpV0Addr nnn => 0xB#4 ++ nnn
  | .rndVxByte x nn => 0xC#4 ++ x ++ nn
  | .drwVxVyN x y n => 0xD#4 ++ x ++ y ++ n
  | .skpVx x => 0xE#4 ++ x ++ 0x9E#8
  | .sknpVx x => 0xE#4 ++ x ++ 0xA1#8
  | .ldVxDT x => 0xF#4 ++ x ++ 0x07#8
  | .ldDTVx x => 0xF#4 ++ x ++ 0x15#8
  | .ldSTVx x => 0xF#4 ++ x ++ 0x18#8
  | .addIVx x => 0xF#4 ++ x ++ 0x1E#8
  | .ldVxK x => 0xF#4 ++ x ++ 0x0A#8
  | .ldFVx x => 0xF#4 ++ x ++ 0x29#8
  | .ldBVx x => 0xF#4 ++ x ++ 0x33#8
  | .ldMemVx x => 0xF#4 ++ x ++ 0x55#8
  | .ldVxMem x => 0xF#4 ++ x ++ 0x65#8

/-- A word's bytes as they lie in memory, the lowest address first (R41). -/
def wordBytes (w : Half) : List Byte := [highByte w, lowByte w]

/-- An instruction's bytes as they lie in memory (R41, R64). -/
def encodeBytes (i : Instr) : List Byte := wordBytes (encode i)

/-- The 16-bit word of an opcode-table row whose `nbits` low bits are those of `w` and whose other bits are 0. -/
def tableWord (nbits w : Nat) : Half := BitVec.ofNat 16 (w % 2 ^ nbits)

/-- The instruction the decoder reads from a table row's word, its bytes laid out as the hardware stores them. -/
def decodeTableWord (nbits w : Nat) : Option Instr :=
  match decode (wordBytes (tableWord nbits w)) with
  | .ok (i, _) => some i
  | .error _ => none

end Sys2Proof
end

