-- ==== Sys2Proof/Config.lean ====
section
/-! DEFINITION. What an implementation fixes (spec/00_scope.md R6), and the one value the spec leaves free. -/

namespace Sys2Proof

/-- MEM_SIZE: addresses 0x000 to 0xFFF (R6, R40). -/
abbrev Config.memSize : Nat := 4096

/-- PROG_BASE: the initial PC and the address Load copies to (R6, R46). -/
abbrev Config.progBase : Nat := 0x200

/-- MAX_PROG: the longest byte sequence Load accepts (R6, R183). -/
abbrev Config.maxProg : Nat := 3584

/-- STACK_DEPTH: the number of stack slots (R6, R16). -/
abbrev Config.stackDepth : Nat := 16

/-- DISP_W: columns of the display (R6, R22). -/
abbrev Config.dispW : Nat := 64

/-- DISP_H: rows of the display (R6, R22). -/
abbrev Config.dispH : Nat := 32

/-- NKEYS: keys of the latch (R6, R18). -/
abbrev Config.nKeys : Nat := 16

/-- FREE VALUE. The random byte of the `n`-th draw since reset: `DrawByte()` of R112, "a byte under no law".
It has no body, so no proof can see a value of it (R24, 92_eei_decisions.md D20 OPEN; log 1). DESIGN CHOICE. -/
opaque Config.rndByte : Nat → Byte

end Sys2Proof
end

