-- ==== Sys2Proof/Machine/Font.lean ====
section
/-! DEFINITION. The built-in hexadecimal font (spec/70_reset_and_hazards.md R181). -/

namespace Sys2Proof.Machine

/-- FONT_BASE: where the glyphs lie in memory (R181, 92_eei_decisions.md D16). -/
def fontBase : Nat := 0x000

/-- FONT_STRIDE: bytes a glyph takes, one per row (R6, R181). -/
def fontStride : Nat := 5

/-- FONT: 16 glyphs, the top row first, the 4 pixel columns in bits 7:4 (R181). -/
def font : List Byte :=
  [0xF0, 0x90, 0x90, 0x90, 0xF0] ++ [0x20, 0x60, 0x20, 0x20, 0x70] ++
  [0xF0, 0x10, 0xF0, 0x80, 0xF0] ++ [0xF0, 0x10, 0xF0, 0x10, 0xF0] ++
  [0x90, 0x90, 0xF0, 0x10, 0x10] ++ [0xF0, 0x80, 0xF0, 0x10, 0xF0] ++
  [0xF0, 0x80, 0xF0, 0x90, 0xF0] ++ [0xF0, 0x10, 0x20, 0x40, 0x40] ++
  [0xF0, 0x90, 0xF0, 0x90, 0xF0] ++ [0xF0, 0x90, 0xF0, 0x10, 0xF0] ++
  [0xF0, 0x90, 0xF0, 0x90, 0x90] ++ [0xE0, 0x90, 0xE0, 0x90, 0xE0] ++
  [0xF0, 0x80, 0x80, 0x80, 0xF0] ++ [0xE0, 0x90, 0x90, 0x90, 0xE0] ++
  [0xF0, 0x80, 0xF0, 0x80, 0xF0] ++ [0xF0, 0x80, 0xF0, 0x80, 0x80]

end Sys2Proof.Machine
end

