-- ==== Sys2Proof/Machine/State.lean ====
section
/-! DEFINITION. The complete state of the machine (spec/10_state.md R10), its reset value (R30), and how an operation can
stop (spec/60_exceptions.md R150). -/

namespace Sys2Proof.Machine

/-- Memory as (address, byte) cells in one canonical form (`Memory.wf` in Machine/Ops.lean): addresses strictly rising and
below 4096, no cell equal to what an unlisted address reads as, which is its reset contents (`Memory.unlisted`; log 4). -/
abbrev Memory := List Host.Cell

/-- The display buffer `D[r][c]`: 32 rows, row 0 at the top, of 64 pixels, column 0 at the left (R22). -/
abbrev Display := Vector (Vector Bool 64) 32

/-- A set of 16 key states, `true` while the key is pressed (R18). -/
abbrev Keys := Vector Bool 16

/-- The state of the key-wait state machine (R19). -/
inductive Mode where
  /-- Step fetches and executes. -/
  | running
  /-- A `LD Vt,K` waits: Step looks at the key latch only. -/
  | awaitingKey (t : Nibble)
deriving DecidableEq, Repr

/-- The thirteen elements of R10. -/
structure State where
  /-- `M`, 4096 bytes (R21, R40) -/
  mem     : Memory
  /-- `V`, sixteen 8-bit registers; VF is `V[15]` (R11, R12) -/
  v       : Vector Byte 16
  /-- `I`, the address register, its top 4 bits always 0 in a reachable state (R14) -/
  i       : Half
  /-- `PC` (R13) -/
  pc      : Half
  /-- `SP`, how many return addresses the stack holds, 0 to 16 (R15; log 3) -/
  sp      : Fin 17
  /-- `S`, the stack slots, `S[0]` the oldest (R16) -/
  stack   : Vector Half 16
  /-- `D` (R22) -/
  display : Display
  /-- `DT`, the delay timer (R17) -/
  dt      : Byte
  /-- `ST`, the sound timer (R17) -/
  st      : Byte
  /-- `K`, the key latch (R18) -/
  k       : Keys
  /-- `KP`, the latch at the previous key check (R23) -/
  kp      : Keys
  /-- `MODE` (R19) -/
  mode    : Mode
  /-- `RNG`: the model's own counter of random bytes drawn since reset; the byte is `Config.rndByte` of it (R24; log 1) -/
  rng     : Nat
deriving DecidableEq, Repr

/-- The state after construction and after every Reset (R30, R180, R182). Memory lists nothing: an unlisted address reads
as its reset contents. `rng`: DESIGN CHOICE, the spec's `RngSeed` is a parameter it leaves open (log 2). -/
def State.reset : State where
  mem     := []
  v       := Vector.replicate 16 0x00
  i       := 0x0000
  pc      := 0x0200
  sp      := 0
  stack   := Vector.replicate 16 0x0000
  display := Vector.replicate 32 (Vector.replicate 64 false)
  dt      := 0x00
  st      := 0x00
  k       := Vector.replicate 16 false
  kp      := Vector.replicate 16 false
  mode    := .running
  rng     := 0

/-- The four error kinds (R150). An operation that ends with one has written nothing (R153). -/
inductive Fault where
  /-- Raised by a Step in mode Running whose fetched word matches no instruction (R151). Safe: the spec's own outcome. -/
  | illegalInstruction
  /-- Raised by CALL with 16 entries on the stack (R92, R152). Safe: the spec's own outcome. -/
  | stackOverflow
  /-- Raised by RET with an empty stack (R90, R152). Safe: the spec's own outcome. -/
  | stackUnderflow
  /-- Raised by Load of more than 3584 bytes, never by Step (R183). Safe: the spec's own outcome. -/
  | loadTooLarge
deriving DecidableEq, Repr

/-- Why the model gives an instruction no meaning. -/
inductive Refusal where
  /-- An instruction without a meaning yet, raised by an arm of `exec`; no arm raises it now. Safe: the model stops. -/
  | notModelled (mnemonic : String)
deriving DecidableEq, Repr

end Sys2Proof.Machine
end

