-- ==== Sys2Proof/Machine/Ops.lean ====
section
/-! DEFINITION. The named operations over the state: memory, registers, program counter, stack, pixels, keys, random byte,
fetch, and how an operation ends with a fault. -/

namespace Sys2Proof.Machine

/-- How an instruction or an operation of the host ends (R154). -/
abbrev Result := Host.Outcome State Fault Refusal

/-- `raise K` (R8): the operation ends with the fault and no state element is written (R153). This is all there is to an
exception on this machine: no state is saved, control goes nowhere, and there is no return from it (R159). -/
def raise (f : Fault) : Result := .fault f

/-! ## Memory (spec/20_memory.md) -/

/-- What an address no cell lists reads as: its reset contents, a font byte or 0x00 (R30, R46, R181). -/
def Memory.unlisted (a : Nat) : Byte := if a < fontBase then 0x00 else font.getD (a - fontBase) 0x00

/-- The byte memory holds at an address. -/
def Memory.read (m : Memory) (a : Nat) : Byte :=
  match m.find? (fun c => c.1 == a) with
  | some c => c.2
  | none => Memory.unlisted a

/-- Put a cell before the first cell of a higher address. -/
def Memory.insert (c : Host.Cell) : Memory → Memory
  | [] => [c]
  | d :: m => if c.1 < d.1 then c :: d :: m else d :: Memory.insert c m

/-- Store a byte at an address, keeping the canonical form: the value an unlisted address reads as is not listed. -/
def Memory.write (m : Memory) (a : Nat) (b : Byte) : Memory :=
  if b = Memory.unlisted a then m.filter (fun c => c.1 != a)
  else Memory.insert (a, b) (m.filter (fun c => c.1 != a))

/-- Store bytes at ascending addresses from `a`. -/
def Memory.writeAll (m : Memory) (a : Nat) : List Byte → Memory
  | [] => m
  | b :: bs => Memory.writeAll (Memory.write m a b) (a + 1) bs

/-- The canonical form: addresses strictly rising, all of them existing, no cell equal to what an unlisted address reads as. -/
abbrev Memory.wf (m : Memory) : Prop :=
  m.Pairwise (fun c d => c.1 < d.1) ∧ ∀ c ∈ m, c.1 < Config.memSize ∧ c.2 ≠ Memory.unlisted c.1

/-- `MemRead(a, 1)`: the byte `M[a mod 4096]`, for any natural number `a` (R8, R40). -/
def memRead (s : State) (a : Nat) : Byte := Memory.read s.mem (a % Config.memSize)

/-- `MemWrite(a, 1, b)`: `M[a mod 4096] <- b` (R8, R40). -/
def memWrite (s : State) (a : Nat) (b : Byte) : State :=
  { s with mem := Memory.write s.mem (a % Config.memSize) b }

/-! ## Registers -/

/-- `V[x]` (R8, R11). -/
def getV (s : State) (x : Nibble) : Byte := s.v[x.toNat]'x.isLt

/-- `V[x] <- b` (R8, R11). -/
def setV (s : State) (x : Nibble) (b : Byte) : State := { s with v := s.v.set x.toNat b x.isLt }

/-- `I <- a`. -/
def setI (s : State) (a : Half) : State := { s with i := a }

/-! ## Program counter (R84) -/

/-- `pc <- target`: an explicit target, after which no advance follows. -/
def setPc (s : State) (a : Half) : State := { s with pc := a }

/-- The default advance: `PC <- (pc + 2) mod 2^16`. -/
def advance (s : State) : State := setPc s (s.pc + 2)

/-- The skips' common rule: `pc + 4` when the condition holds, else `pc + 2`; the skipped bytes are not fetched (R98). -/
def skipIf (c : Bool) (s : State) : State := if c then setPc s (s.pc + 4) else advance s

/-! ## The return-address stack (R15, R16) -/

/-- Push onto the stack: `S[SP] <- a`, `SP <- SP + 1`; `none` when it already holds 16 entries (R92). -/
def push? (s : State) (a : Half) : Option State :=
  if h : s.sp.val < 16 then
    some { s with stack := s.stack.set s.sp.val a h, sp := ⟨s.sp.val + 1, by omega⟩ }
  else none

/-- Pop the stack: the newest entry `S[SP - 1]`, and `SP <- SP - 1`; `none` when it is empty. The slot keeps its content (R90). -/
def pop? (s : State) : Option (Half × State) :=
  if h : s.sp.val = 0 then none
  else some (s.stack[s.sp.val - 1]'(by omega), { s with sp := ⟨s.sp.val - 1, by omega⟩ })

/-! ## Display (R22, R131) -/

/-- The pixel in row `r mod 32` and column `c mod 64`. -/
def getPixel (d : Display) (r c : Nat) : Bool :=
  (d[r % 32]'(Nat.mod_lt _ (by decide)))[c % 64]'(Nat.mod_lt _ (by decide))

/-- Write the pixel in row `r mod 32` and column `c mod 64`. -/
def setPixel (d : Display) (r c : Nat) (b : Bool) : Display :=
  d.set (r % 32) ((d[r % 32]'(Nat.mod_lt _ (by decide))).set (c % 64) b (Nat.mod_lt _ (by decide)))
    (Nat.mod_lt _ (by decide))

/-- Every pixel false. -/
def blankDisplay : Display := Vector.replicate 32 (Vector.replicate 64 false)

/-- A display and whether a collision was recorded on it. -/
abbrev Blit := Display × Bool

/-- XOR one sprite bit onto one pixel; record a collision when the old pixel and the bit are both set (R132). -/
def plot (acc : Blit) (r c : Nat) (bit : Bool) : Blit :=
  (setPixel acc.1 r c (getPixel acc.1 r c ^^ bit), acc.2 || (getPixel acc.1 r c && bit))

/-- Bit `k` of a sprite row, the most significant first: `b[7 - k]` (R131). -/
def spriteBit (b : Byte) (k : Nat) : Bool := b.getLsbD (7 - k)

/-- Draw one row of a sprite, 8 pixels from column `c` on (R132). -/
def plotRow (acc : Blit) (r c : Nat) (b : Byte) : Blit :=
  (List.range 8).foldl (fun acc k => plot acc r (c + k) (spriteBit b k)) acc

/-- Draw the rows of a sprite from row `r` and column `c` on, recording collisions (R132). -/
def blit (d : Display) (r c : Nat) (rows : List Byte) : Blit :=
  (rows.zipIdx).foldl (fun acc bj => plotRow acc (r + bj.2) c bj.1) (d, false)

/-! ## Keys (R18, R23) -/

/-- `K[k]` or `KP[k]`. -/
def getKey (ks : Keys) (k : Nibble) : Bool := ks[k.toNat]'k.isLt

/-- The key indices, the lowest first. -/
def allKeys : List Nibble := (List.range 16).map (BitVec.ofNat 4)

/-- The lowest key pressed now and not pressed at the previous check (R146). -/
def newKey? (s : State) : Option Nibble := allKeys.find? (fun k => getKey s.k k && !getKey s.kp k)

/-! ## Random byte (R24, R112) -/

/-- `DrawByte()`: the free byte of the next draw (log 1). -/
def drawByte (s : State) : Byte := Config.rndByte s.rng

/-- The generator after one draw (R24). -/
def drawn (s : State) : State := { s with rng := s.rng + 1 }

/-! ## Fetch (spec/20_memory.md R41, spec/40_step_cycle.md R82) -/

/-- The two bytes at `M[PC mod 4096]` and `M[(PC + 1) mod 4096]`. -/
def fetchBytes (s : State) : List Byte := [memRead s s.pc.toNat, memRead s (s.pc.toNat + 1)]

/-- Fetch and decode the instruction at PC. -/
def fetch (s : State) : Except Reject (Instr × List Byte) := decode (fetchBytes s)

/-- Bytes that do not decode raise IllegalInstruction (R151). -/
def rejectFault : Reject → Fault
  | .truncated => .illegalInstruction
  | .illegal _ => .illegalInstruction

/-- The state with a word stored where the next Step fetches, and in the mode in which Step fetches (log 5). -/
def placeWord (s : State) (w : Half) : State :=
  { memWrite (memWrite s s.pc.toNat (highByte w)) (s.pc.toNat + 1) (lowByte w) with mode := .running }

end Sys2Proof.Machine
end

