-- ==== Sys2Proof/Machine/Operands.lean ====
section
/-! DEFINITION. Operand forms: immediates (spec/30_encoding.md R63), the one addressing mode for data
(spec/43_index_memory.md R126), and the ways an instruction hands over its result. -/

namespace Sys2Proof.Machine

/-- `zext_16(nnn)` (R63). -/
def zextAddr (nnn : Addr) : Half := nnn.setWidth 16

/-- `zext_16(b)` (R63, R93, R121). -/
def zextByte (b : Byte) : Half := b.setWidth 16

/-- `zext_8(k)`: a key index as a register value (R146). -/
def zextKey (k : Nibble) : Byte := k.setWidth 8

/-- `V[x][3:0]`: the key or digit a register selects (R122, R143, R144). -/
def lowNibble (b : Byte) : Nibble := b.extractLsb' 0 4

/-- The effective address of byte `j` of a transfer: `(I + j) mod 4096` (R126). -/
def effAddr (s : State) (j : Nat) : Nat := (s.i.toNat + j) % Config.memSize

/-- `n` bytes of memory from `M[I]` on (R42). -/
def readRun (s : State) (n : Nat) : List Byte := (List.range n).map (fun j => memRead s (effAddr s j))

/-- Store bytes from `M[I]` on, each address wrapped on its own (R42, R126). -/
def storeRun (s : State) (bs : List Byte) : State :=
  bs.zipIdx.foldl (fun t bj => memWrite t (effAddr s bj.2) bj.1) s

/-- The registers `V[0]` to `V[x]`, in order (R124). -/
def regRun (s : State) (x : Nibble) : List Byte :=
  (List.range (x.toNat + 1)).map (fun j => getV s (BitVec.ofNat 4 j))

/-- Load bytes into the registers from `V[0]` on (R125). -/
def loadRun (s : State) (bs : List Byte) : State :=
  bs.zipIdx.foldl (fun t bj => setV t (BitVec.ofNat 4 bj.2) bj.1) s

/-- End an instruction with the default advance (R84). -/
def done (s : State) : Result := .next (advance s)

/-- End an instruction that writes `V[x]`. -/
def writeReg (s : State) (x : Nibble) (b : Byte) : Result := done (setV s x b)

/-- End a skip instruction (R98). -/
def skipWhen (c : Bool) (s : State) : Result := .next (skipIf c s)

end Sys2Proof.Machine
end

