-- ==== Sys2Proof/Machine/Flags.lean ====
section
/-! DEFINITION. The one flag, VF (spec/10_state.md R12), and the order of the result and flag writes (spec/42_alu.md R100). -/

namespace Sys2Proof.Machine

/-- The register the flag is kept in: `V[15]` (R12). -/
def vf : Nibble := 0xF

/-- A flag's value in VF: 0x00 or 0x01 (R12). -/
def flagByte (c : Bool) : Byte := if c then 0x01 else 0x00

/-- Carry of an addition: the exact sum exceeds 255 (R107). -/
def carryOf (a b : Byte) : Bool := decide (a.toNat + b.toNat > 255)

/-- No borrow of `a - b`: `a >= b` before the subtraction (R108, R110). -/
def noBorrowOf (a b : Byte) : Bool := decide (a.toNat ≥ b.toNat)

/-- The bit a right shift by one moves out: bit 0 (R109). -/
def shiftedOutRight (a : Byte) : Bool := a.getLsbD 0

/-- The bit a left shift by one moves out: bit 7 (R111). -/
def shiftedOutLeft (a : Byte) : Bool := a.getLsbD 7

/-- Write VF as a flag. -/
def setFlag (s : State) (c : Bool) : State := setV s vf (flagByte c)

/-- End an instruction that writes `V[x]` and then the flag: with `x = 15` the flag is what VF ends holding (R100). -/
def writeRegFlag (s : State) (x : Nibble) (b : Byte) (c : Bool) : Result := done (setFlag (setV s x b) c)

end Sys2Proof.Machine
end

