-- ==== Sys2Proof/Machine/Alu.lean ====
section
/-! DEFINITION. Register loads, arithmetic, logic, shifts, random (spec/42_alu.md). -/

namespace Sys2Proof.Machine

/-- LD Vx,byte (R101). -/
def execLdVxByte (x : Nibble) (nn : Byte) (s : State) : Result := writeReg s x nn

/-- ADD Vx,byte: wraps modulo 256, no flag (R102). -/
def execAddVxByte (x : Nibble) (nn : Byte) (s : State) : Result := writeReg s x (getV s x + nn)

/-- LD Vx,Vy (R103). -/
def execLdVxVy (x y : Nibble) (s : State) : Result := writeReg s x (getV s y)

/-- OR Vx,Vy: no flag (R104). -/
def execOrVxVy (x y : Nibble) (s : State) : Result := writeReg s x (getV s x ||| getV s y)

/-- AND Vx,Vy: no flag (R105). -/
def execAndVxVy (x y : Nibble) (s : State) : Result := writeReg s x (getV s x &&& getV s y)

/-- XOR Vx,Vy: no flag (R106). -/
def execXorVxVy (x y : Nibble) (s : State) : Result := writeReg s x (getV s x ^^^ getV s y)

/-- ADD Vx,Vy: VF is the carry (R107). -/
def execAddVxVy (x y : Nibble) (s : State) : Result :=
  writeRegFlag s x (getV s x + getV s y) (carryOf (getV s x) (getV s y))

/-- SUB Vx,Vy: VF is 1 when there is no borrow (R108). -/
def execSubVxVy (x y : Nibble) (s : State) : Result :=
  writeRegFlag s x (getV s x - getV s y) (noBorrowOf (getV s x) (getV s y))

/-- SUBN Vx,Vy: the operands the other way round (R110). -/
def execSubnVxVy (x y : Nibble) (s : State) : Result :=
  writeRegFlag s x (getV s y - getV s x) (noBorrowOf (getV s y) (getV s x))

/-- SHR Vx,(Vy): shifts Vx in place; Vy is neither read nor written (R109, R67). -/
def execShrVx (x _y : Nibble) (s : State) : Result :=
  writeRegFlag s x (getV s x >>> 1) (shiftedOutRight (getV s x))

/-- SHL Vx,(Vy): shifts Vx in place; Vy is neither read nor written (R111, R67). -/
def execShlVx (x _y : Nibble) (s : State) : Result :=
  writeRegFlag s x (getV s x <<< 1) (shiftedOutLeft (getV s x))

/-- What RND leaves in `V[x]` when the byte drawn is `r` (R112). -/
def rndWith (r : Byte) (x : Nibble) (nn : Byte) (s : State) : State := advance (setV s x (r &&& nn))

/-- RND Vx,byte: a free byte, masked; the generator advances by one draw (R112, R24; log 1). -/
def execRndVxByte (x : Nibble) (nn : Byte) (s : State) : Result :=
  .next (rndWith (drawByte s) x nn (drawn s))

end Sys2Proof.Machine
end

