-- ==== Sys2Proof/Machine/Flow.lean ====
section
/-! DEFINITION. Control transfer (spec/41_flow.md). -/

namespace Sys2Proof.Machine

/-- RET: the popped value goes to PC as it is; StackUnderflow when the stack is empty (R90). -/
def execRet (s : State) : Result :=
  match pop? s with
  | none => raise .stackUnderflow
  | some (a, t) => .next (setPc t a)

/-- JP addr (R91). -/
def execJpAddr (nnn : Addr) (s : State) : Result := .next (setPc s (zextAddr nnn))

/-- CALL addr: pushes the address of the instruction after it; StackOverflow when the stack is full (R92). -/
def execCallAddr (nnn : Addr) (s : State) : Result :=
  match push? s (s.pc + 2) with
  | none => raise .stackOverflow
  | some t => .next (setPc t (zextAddr nnn))

/-- JP V0,addr: the 16-bit sum is not reduced modulo 4096 (R93). -/
def execJpV0Addr (nnn : Addr) (s : State) : Result := .next (setPc s (zextAddr nnn + zextByte (getV s 0)))

/-- SE Vx,byte (R94). -/
def execSeVxByte (x : Nibble) (nn : Byte) (s : State) : Result := skipWhen (getV s x == nn) s

/-- SNE Vx,byte (R95). -/
def execSneVxByte (x : Nibble) (nn : Byte) (s : State) : Result := skipWhen (getV s x != nn) s

/-- SE Vx,Vy (R96). -/
def execSeVxVy (x y : Nibble) (s : State) : Result := skipWhen (getV s x == getV s y) s

/-- SNE Vx,Vy (R97). -/
def execSneVxVy (x y : Nibble) (s : State) : Result := skipWhen (getV s x != getV s y) s

end Sys2Proof.Machine
end

