-- ==== Sys2Proof/Machine/Index.lean ====
section
/-! DEFINITION. The address register and memory transfers (spec/43_index_memory.md). -/

namespace Sys2Proof.Machine

/-- LD I,addr (R120). -/
def execLdIAddr (nnn : Addr) (s : State) : Result := done (setI s (zextAddr nnn))

/-- ADD I,Vx: modulo 4096, no flag (R121). -/
def execAddIVx (x : Nibble) (s : State) : Result :=
  done (setI s (BitVec.ofNat 16 ((s.i.toNat + (getV s x).toNat) % Config.memSize)))

/-- LD F,Vx: the address of the glyph for the low nibble of Vx (R122). -/
def execLdFVx (x : Nibble) (s : State) : Result :=
  done (setI s (BitVec.ofNat 16 (fontBase + fontStride * (lowNibble (getV s x)).toNat)))

/-- The hundreds, tens and units of a byte, as binary numbers (R123). -/
def decimalDigits (b : Byte) : List Byte :=
  [BitVec.ofNat 8 (b.toNat / 100), BitVec.ofNat 8 (b.toNat / 10 % 10), BitVec.ofNat 8 (b.toNat % 10)]

/-- LD B,Vx: three digits at I, I + 1, I + 2; I unchanged (R123). -/
def execLdBVx (x : Nibble) (s : State) : Result := done (storeRun s (decimalDigits (getV s x)))

/-- LD [I],Vx: V0 to Vx at ascending addresses; I unchanged (R124, R126). -/
def execLdMemVx (x : Nibble) (s : State) : Result := done (storeRun s (regRun s x))

/-- LD Vx,[I]: V0 to Vx from ascending addresses; I unchanged (R125, R126). -/
def execLdVxMem (x : Nibble) (s : State) : Result := done (loadRun s (readRun s (x.toNat + 1)))

end Sys2Proof.Machine
end

