-- ==== Sys2Proof/Machine/Screen.lean ====
section
/-! DEFINITION. Display clear and sprite blit (spec/44_display.md). -/

namespace Sys2Proof.Machine

/-- CLS: every pixel false; VF is not written (R130). -/
def execCls (s : State) : Result := done { s with display := blankDisplay }

/-- DRW Vx,Vy,N: the coordinates are read first, then the rows are drawn, then VF is written (R132). -/
def execDrwVxVyN (x y n : Nibble) (s : State) : Result :=
  let drawing := blit s.display (getV s y).toNat (getV s x).toNat (readRun s n.toNat)
  done (setFlag { s with display := drawing.1 } drawing.2)

end Sys2Proof.Machine
end

