-- ==== Sys2Proof/Machine/TimersKeys.lean ====
section
/-! DEFINITION. Timer and key instructions, and the Step taken while waiting for a key (spec/45_timers_keys.md). -/

namespace Sys2Proof.Machine

/-- LD Vx,DT (R140). -/
def execLdVxDT (x : Nibble) (s : State) : Result := writeReg s x s.dt

/-- LD DT,Vx (R141). -/
def execLdDTVx (x : Nibble) (s : State) : Result := done { s with dt := getV s x }

/-- LD ST,Vx (R142). -/
def execLdSTVx (x : Nibble) (s : State) : Result := done { s with st := getV s x }

/-- SKP Vx: the key is the low nibble of Vx (R143). -/
def execSkpVx (x : Nibble) (s : State) : Result := skipWhen (getKey s.k (lowNibble (getV s x))) s

/-- SKNP Vx: the condition inverted (R144). -/
def execSknpVx (x : Nibble) (s : State) : Result := skipWhen (!getKey s.k (lowNibble (getV s x))) s

/-- LD Vx,K: enters the wait and takes the snapshot; PC stays at this instruction, no key is looked for (R145). -/
def execLdVxK (x : Nibble) (s : State) : Result := .next { s with mode := .awaitingKey x, kp := s.k }

/-- Step while waiting for a key for `V[t]`: no fetch; the lowest newly pressed key, if any, ends the wait (R146). -/
def awaitStep (t : Nibble) (s : State) : Result :=
  match newKey? s with
  | none => .next { s with kp := s.k }
  | some k => .next (advance { setV s t (zextKey k) with mode := .running, kp := s.k })

end Sys2Proof.Machine
end

