-- ==== Sys2Proof/Machine/Step.lean ====
section
/-! DEFINITION. One Step of the engine (spec/40_step_cycle.md R80). -/

namespace Sys2Proof.Machine

/-- Step: mode dispatch (R81), then fetch (R82), decode (R83), execute. -/
def step (s : State) : Host.Outcome State Fault Refusal :=
  match s.mode with
  | .awaitingKey t => awaitStep t s
  | .running =>
    match fetch s with
    | .ok (i, _) => exec i s
    | .error r => raise (rejectFault r)

/-- The state with a table row's word stored where the next Step fetches (log 5). -/
def State.withFetchWord (s : State) (nbits w : Nat) : State := placeWord s (tableWord nbits w)

end Sys2Proof.Machine
end

