-- ==== Sys2Proof/Machine/HostOps.lean ====
section
/-! DEFINITION. The operations the host performs on the machine, and what it observes (spec/60_exceptions.md R160 to R171,
spec/70_reset_and_hazards.md R180 to R186). -/

namespace Sys2Proof.Machine

/-- One tick of one timer: decremented unless it is 0 (R160). -/
def countDown (t : Byte) : Byte := if t = 0 then 0 else t - 1

/-- Tick: both timers, each on its own, in every mode (R160, R161). -/
def tick (s : State) : State := { s with dt := countDown s.dt, st := countDown s.st }

/-- SetKey(k, b): the latch only (R163). -/
def setKey (k : Nibble) (b : Bool) (s : State) : State := { s with k := s.k.set k.toNat b k.isLt }

/-- Load(bytes): the length check, then a reset, then a verbatim copy to 0x200 (R183). -/
def load (bytes : List Byte) : Result :=
  if bytes.length > Config.maxProg then raise .loadTooLarge
  else .next { State.reset with mem := Memory.writeAll State.reset.mem Config.progBase bytes }

/-- The five operations that change state (R170). -/
inductive HostOp where
  | step
  | tick
  | setKey (k : Nibble) (b : Bool)
  | reset
  | load (bytes : List Byte)
deriving DecidableEq, Repr

/-- How an operation ends: atomic, from the state the previous one left (R170). -/
def perform (op : HostOp) (s : State) : Result :=
  match op with
  | .step => step s
  | .tick => .next (tick s)
  | .setKey k b => .next (setKey k b s)
  | .reset => .next State.reset
  | .load bytes => load bytes

/-- The state after an operation: an operation that ends with an error kind has written nothing (R153). -/
def settle (s : State) : Result → State
  | .next t => t
  | .fault _ => s
  | .refused _ => s

/-- The state after one operation. -/
def after (s : State) (op : HostOp) : State := settle s (perform op s)

/-- The state after the operations of a host's schedule, in order: every interleaving is such a list (R161, R170). -/
def runOps (ops : List HostOp) (s : State) : State := ops.foldl after s

/-- The number of an error kind (R154: the numbers are not normative). -/
def faultCode : Fault → BitVec 3
  | .illegalInstruction => 1
  | .stackOverflow => 2
  | .stackUnderflow => 3
  | .loadTooLarge => 4

/-- The number of an operation's result, `Ok` = 0 (R154); none for a refusal, which no operation gives. -/
def resultCode : Result → Option (BitVec 3)
  | .next _ => some 0
  | .fault f => some (faultCode f)
  | .refused _ => none

/-- The display snapshot (R165). -/
def displaySnapshot (s : State) : Display := s.display

/-- The 2048 pixels in row-major order: pixel `D[r][c]` at index `r*64 + c` (R22, R165). -/
def displayPixels (s : State) : List Bool := s.display.toList.flatMap (·.toList)

/-- The sound timer snapshot (R166). -/
def soundSnapshot (s : State) : Byte := s.st

/-- The gate the spec suggests for a 1-bit sound output; no rule depends on it (R166, 92_eei_decisions.md D27). -/
def soundActive (s : State) : Bool := s.st != 0

/-- Whether a key wait is on (R19). -/
def awaiting (s : State) : Bool :=
  match s.mode with
  | .running => false
  | .awaitingKey _ => true

/-- The spec's suggested test for the end of a run, which the machine itself does not have: MODE is Running and the word at
PC is a JP to `PC mod 4096` (R186, 92_eei_decisions.md D25 OPEN; log 8). DESIGN CHOICE. -/
def isFinal (s : State) : Bool :=
  match s.mode, fetch s with
  | .running, .ok (.jpAddr nnn, _) => nnn.toNat == s.pc.toNat % Config.memSize
  | _, _ => false

end Sys2Proof.Machine
end

