-- ==== Sys2Proof/Machine/Ports.lean ====
section
/-! DEFINITION. The port-level reading of the operations that spec/60_exceptions.md R172 suggests, "for a model that wants
pins": the spec's own suggestion, on which no other rule depends. The core is the machine of State.lean; what the pins need
beside it, a Load that goes on over several clocks, is the port's own and no state of the machine (log 11). -/

namespace Sys2Proof.Machine

/-- The input pins, sampled at one clock (R172). -/
structure PortIn where
  rst     : Bool
  step    : Bool
  tick    : Bool
  keyWe   : Bool
  keyIdx  : Nibble
  keyVal  : Bool
  ldStart : Bool
  ldWe    : Bool
  ldAddr  : Addr
  ldData  : Byte
  rndIn   : Byte
  dRow    : BitVec 5
  dCol    : BitVec 6
deriving DecidableEq, Repr

/-- The output pins (R172). -/
structure PortOut where
  /-- the result code, with the Step or Load that produced it -/
  result      : Option (BitVec 3)
  awaiting    : Bool
  st          : Byte
  soundActive : Bool
  dPix        : Bool
deriving DecidableEq, Repr

/-- A Load that began with `ld_start` and may still receive bytes. DESIGN CHOICE (log 11): R172 gives no register for it. -/
structure PortLoad where
  /-- the state before the Load, which a Load that is too large leaves (R153, R183) -/
  before  : State
  /-- how many bytes it has received -/
  written : Nat
deriving DecidableEq, Repr

/-- What stands behind the pins: the machine, and the Load under way, if any. -/
structure PortState where
  core : State
  load : Option PortLoad
deriving DecidableEq, Repr

/-- How many operations the pins ask for; `ld_start` and `ld_we` both belong to Load (R170, R172; log 11). -/
def assertedOps (p : PortIn) : Nat :=
  [p.rst, p.step, p.tick, p.keyWe, p.ldStart || p.ldWe].count true

/-- What the output pins show of a state, with the result code of the operation just performed. DESIGN CHOICE (log 11):
`clock` gives it the state AFTER the clock's operation, so `awaiting`, `st`, `sound_active` and `d_pix` of a clock show what
that operation left; R172 says it of `result` alone. -/
def portOut (p : PortIn) (result : Option (BitVec 3)) (s : State) : PortOut where
  result      := result
  awaiting    := Sys2Proof.Machine.awaiting s
  st          := soundSnapshot s
  soundActive := Sys2Proof.Machine.soundActive s
  dPix        := getPixel s.display p.dRow.toNat p.dCol.toNat

/-- Step with the random byte taken from `rnd_in`, sampled when RND executes: no generator is advanced (R112, R172). -/
def portStep (rndIn : Byte) (s : State) : Result :=
  match s.mode, fetch s with
  | .running, .ok (.rndVxByte x nn, _) => .next (rndWith rndIn x nn s)
  | _, _ => step s

/-- The end of a clock that performed Reset, Step, Tick or SetKey: the outputs show the state it left, and a Load under way
ends with the bytes it has (both log 11). -/
def clockOp (p : PortIn) (result : Option (BitVec 3)) (t : State) : PortState × PortOut :=
  (⟨t, none⟩, portOut p result t)

/-- `ld_start`: a Load begins, with its Reset (R172, R183). -/
def loadStart (s : PortState) : PortState := ⟨State.reset, some ⟨s.core, 0⟩⟩

/-- The address at which a Load's next byte goes: 0x200 upward, in the 12 bits of `ld_addr` (R172). -/
def PortLoad.nextAddr (l : PortLoad) : Addr := BitVec.ofNat 12 (Config.progBase + l.written)

/-- `ld_we`: the next byte of the Load under way, and the result of the Load so far. Byte 3585 and every later one give
LoadTooLarge, and the machine is as it was before the Load (R153, R183). DESIGN CHOICE (log 11): no transition with no Load
under way, since a byte written outside a Load is a host write that R53 does not give; nor at another address than the next. -/
def loadWrite (addr : Addr) (b : Byte) (s : PortState) : Option (PortState × Result) :=
  match s.load with
  | none => none
  | some l =>
    if addr ≠ l.nextAddr then none
    else if l.written < Config.maxProg then
      let t := memWrite s.core addr.toNat b
      some (⟨t, some { l with written := l.written + 1 }⟩, .next t)
    else some (⟨l.before, some { l with written := l.written + 1 }⟩, raise .loadTooLarge)

/-- One clock of Load's pins; asserted together they begin a Load and write its first byte (log 11). -/
def clockLoad (p : PortIn) (s : PortState) : Option (PortState × PortOut) :=
  let begun := if p.ldStart then loadStart s else s
  if p.ldWe then
    match loadWrite p.ldAddr p.ldData begun with
    | none => none
    | some (t, r) => some (t, portOut p (resultCode r) t.core)
  else some (begun, portOut p (resultCode (.next begun.core)) begun.core)

/-- One clock: the whole of the one operation whose pin is asserted, or one step of a Load. No transition when two
operations are asked for: the spec gives that no meaning (R170, R172). The outputs show the state after it (log 11). -/
def clock (p : PortIn) (s : PortState) : Option (PortState × PortOut) :=
  if assertedOps p > 1 then none
  else if p.rst then some (clockOp p none State.reset)
  else if p.step then
    let r := portStep p.rndIn s.core
    some (clockOp p (resultCode r) (settle s.core r))
  else if p.tick then some (clockOp p none (tick s.core))
  else if p.keyWe then some (clockOp p none (setKey p.keyIdx p.keyVal s.core))
  else if p.ldStart || p.ldWe then clockLoad p s
  else some (s, portOut p none s.core)

/-- A clock and the clocks after it, with the output of the last. -/
def clocks (p : PortIn) : List PortIn → PortState → Option (PortState × PortOut)
  | [], s => clock p s
  | q :: ps, s =>
    match clock p s with
    | none => none
    | some (t, _) => clocks q ps t

/-- No pin asserted. -/
def noPins : PortIn where
  rst     := false
  step    := false
  tick    := false
  keyWe   := false
  keyIdx  := 0
  keyVal  := false
  ldStart := false
  ldWe    := false
  ldAddr  := 0
  ldData  := 0
  rndIn   := 0
  dRow    := 0
  dCol    := 0

/-- The pins of a Load's first clock. -/
def startPins : PortIn := { noPins with ldStart := true }

/-- The pins of the clocks that bring a Load's bytes, from byte number `n` on: `ld_addr` counts up from 0x200 (R172). -/
def bytePins (n : Nat) : List Byte → List PortIn
  | [] => []
  | b :: bs => { noPins with ldWe := true, ldAddr := BitVec.ofNat 12 (Config.progBase + n), ldData := b } ::
      bytePins (n + 1) bs

end Sys2Proof.Machine
end

