-- ==== Sys2Proof/Safety.lean ====
section
/-! DEFINITION. The terms claims use: the machine's invariant, what an instruction leaves unchanged, and a safe step. -/

namespace Sys2Proof.Machine

/-- While a key wait is on, PC holds the address of the `LD Vt,K` that is waiting (spec/10_state.md R13). -/
def WaitsAtItsInstruction (s : State) : Prop :=
  ∀ t, s.mode = .awaitingKey t → fetch s = .ok (.ldVxK t, [])

/-- What holds after Reset and after every operation: memory is canonical, I is an address below 4096 (R14, R26), and a
waiting machine stands at its `LD Vt,K` (R13). SP at most 16 and the widths of R26 are in the fields' types. -/
structure Inv (s : State) : Prop where
  mem  : Memory.wf s.mem
  i    : s.i.toNat < 4096
  wait : WaitsAtItsInstruction s

/-- The columns of the access matrix (R31), SP and the stack slots apart. -/
inductive Part where
  | v | i | pc | sp | stack | mem | display | dt | st | k | kp | mode | rng
deriving DecidableEq, Repr

/-- Every part of the state not listed is the same in both states; memory is compared byte by byte. -/
def UnchangedExcept (ps : List Part) (s t : State) : Prop :=
  (.v ∈ ps ∨ ∀ r, getV t r = getV s r) ∧
  (.i ∈ ps ∨ t.i = s.i) ∧
  (.pc ∈ ps ∨ t.pc = s.pc) ∧
  (.sp ∈ ps ∨ t.sp = s.sp) ∧
  (.stack ∈ ps ∨ t.stack = s.stack) ∧
  (.mem ∈ ps ∨ ∀ a, memRead t a = memRead s a) ∧
  (.display ∈ ps ∨ ∀ r c, getPixel t.display r c = getPixel s.display r c) ∧
  (.dt ∈ ps ∨ t.dt = s.dt) ∧
  (.st ∈ ps ∨ t.st = s.st) ∧
  (.k ∈ ps ∨ t.k = s.k) ∧
  (.kp ∈ ps ∨ t.kp = s.kp) ∧
  (.mode ∈ ps ∨ t.mode = s.mode) ∧
  (.rng ∈ ps ∨ t.rng = s.rng)

/-- A Step that ends Ok (R154). -/
def StepsOk (s : State) : Prop := ∃ t, step s = .next t

end Sys2Proof.Machine
end

