-- ==== Sys2Proof/Certificates/Slice0/Obligations.lean ====
section
/-! DEFINITION. The statements for the provers, from the numbered rules of spec/; the words they are written with first.
What an instruction leaves unchanged is said by `UnchangedExcept`, which compares memory byte by byte. -/

open Sys2Proof Sys2Proof.Machine

namespace Sys2Proof.Spec

/-- The word at PC: the byte at `PC mod 4096` high, the byte at `(PC + 1) mod 4096` low (R41). -/
def wordAtPc (s : State) : Half :=
  BitVec.ofNat 16 (256 * (memRead s (s.pc.toNat % 4096)).toNat + (memRead s ((s.pc.toNat + 1) % 4096)).toNat)

/-- Key `k` is pressed now and was not at the previous check (R146). -/
def NewKey (s : State) (k : Nibble) : Prop := getKey s.k k = true ∧ getKey s.kp k = false

/-- A set bit of the sprite of `n` rows at `M[I]` lands on row `r`, column `c` (R131). -/
def SpriteSets (s : State) (x y n : Nibble) (r c : Nat) : Prop :=
  ∃ j k, j < n.toNat ∧ k < 8 ∧ r = ((getV s y).toNat + j) % 32 ∧ c = ((getV s x).toNat + k) % 64 ∧
    (memRead s (s.i.toNat + j)).getLsbD (7 - k) = true

/-- Some pixel is set in `s` and unset in `t` (R12, R132). -/
def Collides (s t : State) : Prop :=
  ∃ r c, r < 32 ∧ c < 64 ∧ getPixel s.display r c = true ∧ getPixel t.display r c = false

/-- `b` is 1 where `p` holds and 0 where it does not. -/
def FlagIs (b : Byte) (p : Prop) : Prop := (p ∧ b = 1) ∨ (¬ p ∧ b = 0)

/-- After an instruction that writes `V[x]`, wraps no further and advances PC by 2. -/
def WritesReg (i : Instr) (s : State) (x : Nibble) (b : Byte) : Prop :=
  ∃ t, exec i s = .next t ∧ (∀ r, getV t r = if r = x then b else getV s r) ∧ t.pc = s.pc + 2 ∧
    UnchangedExcept [.v, .pc] s t

/-- After an instruction that writes a result of that value to `V[x]` and then a flag to VF (R100). -/
def WritesRegFlag (i : Instr) (s : State) (x : Nibble) (value : Nat) (flag : Prop) : Prop :=
  ∃ t, exec i s = .next t ∧ FlagIs (getV t 15) flag ∧ (x ≠ 15 → (getV t x).toNat = value) ∧
    (∀ r, r ≠ 15 → r ≠ x → getV t r = getV s r) ∧ t.pc = s.pc + 2 ∧ UnchangedExcept [.v, .pc] s t

/-- After a skip instruction whose condition is `c` (R98). -/
def Skips (i : Instr) (s : State) (c : Prop) : Prop :=
  ∃ t, exec i s = .next t ∧ (c → t.pc = s.pc + 4) ∧ (¬ c → t.pc = s.pc + 2) ∧ UnchangedExcept [.pc] s t

/-- The columns of R31 in which an instruction has a "w", PC with them. -/
def matrixParts : Instr → List Part
  | .cls => [.display, .pc]
  | .ret => [.pc, .sp]
  | .jpAddr _ | .jpV0Addr _ => [.pc]
  | .callAddr _ => [.pc, .sp, .stack]
  | .seVxByte _ _ | .sneVxByte _ _ | .seVxVy _ _ | .sneVxVy _ _ | .skpVx _ | .sknpVx _ => [.pc]
  | .ldVxByte _ _ | .addVxByte _ _ | .ldVxVy _ _ | .orVxVy _ _ | .andVxVy _ _ | .xorVxVy _ _ => [.v, .pc]
  | .addVxVy _ _ | .subVxVy _ _ | .subnVxVy _ _ | .shrVx _ _ | .shlVx _ _ => [.v, .pc]
  | .ldIAddr _ | .addIVx _ | .ldFVx _ => [.i, .pc]
  | .rndVxByte _ _ => [.v, .rng, .pc]
  | .drwVxVyN _ _ _ => [.v, .display, .pc]
  | .ldVxDT _ => [.v, .pc]
  | .ldDTVx _ => [.dt, .pc]
  | .ldSTVx _ => [.st, .pc]
  | .ldVxK _ => [.kp, .mode]
  | .ldBVx _ | .ldMemVx _ => [.mem, .pc]
  | .ldVxMem _ => [.v, .pc]

/-- The registers R31 lets an instruction write. -/
def MatrixReg : Instr → Nibble → Prop
  | .ldVxByte x _, r | .addVxByte x _, r | .ldVxVy x _, r | .orVxVy x _, r | .andVxVy x _, r | .xorVxVy x _, r
  | .rndVxByte x _, r | .ldVxDT x, r => r = x
  | .addVxVy x _, r | .subVxVy x _, r | .subnVxVy x _, r | .shrVx x _, r | .shlVx x _, r => r = x ∨ r = 15
  | .drwVxVyN _ _ _, r => r = 15
  | .ldVxMem x, r => r.toNat ≤ x.toNat
  | _, _ => False

/-- The six instructions that write VF as a flag (R12). -/
def WritesFlag : Instr → Prop
  | .addVxVy _ _ | .subVxVy _ _ | .shrVx _ _ | .subnVxVy _ _ | .shlVx _ _ | .drwVxVyN _ _ _ => True
  | _ => False

/-- The instructions that name VF as their ordinary destination (R12, R124, R125). -/
def NamesVf : Instr → Prop
  | .ldVxByte x _ | .addVxByte x _ | .ldVxVy x _ | .orVxVy x _ | .andVxVy x _ | .xorVxVy x _
  | .rndVxByte x _ | .ldVxDT x | .ldVxMem x => x = 15
  | _ => False

/-- The value PC is written with by an instruction that completes (R84). -/
def PcRule (i : Instr) (s t : State) : Prop :=
  match i with
  | .jpAddr nnn | .callAddr nnn => t.pc.toNat = nnn.toNat
  | .jpV0Addr nnn => t.pc.toNat = nnn.toNat + (getV s 0).toNat
  | .ret => ∃ h : s.sp.val ≠ 0, t.pc = s.stack[s.sp.val - 1]'(by omega)
  | .seVxByte x nn => t.pc = if getV s x = nn then s.pc + 4 else s.pc + 2
  | .sneVxByte x nn => t.pc = if getV s x ≠ nn then s.pc + 4 else s.pc + 2
  | .seVxVy x y => t.pc = if getV s x = getV s y then s.pc + 4 else s.pc + 2
  | .sneVxVy x y => t.pc = if getV s x ≠ getV s y then s.pc + 4 else s.pc + 2
  | .skpVx x => t.pc = if getKey s.k (BitVec.ofNat 4 ((getV s x).toNat % 16)) = true then s.pc + 4 else s.pc + 2
  | .sknpVx x => t.pc = if getKey s.k (BitVec.ofNat 4 ((getV s x).toNat % 16)) = false then s.pc + 4 else s.pc + 2
  | .ldVxK _ => t.pc = s.pc
  | _ => t.pc = s.pc + 2

/-- The rows of the sixteen glyphs, four pixels a row, the leftmost the highest bit, read from R181's pictures. -/
def glyphRows : List Nat :=
  [0xF, 0x9, 0x9, 0x9, 0xF,  0x2, 0x6, 0x2, 0x2, 0x7,  0xF, 0x1, 0xF, 0x8, 0xF,  0xF, 0x1, 0xF, 0x1, 0xF] ++
  [0x9, 0x9, 0xF, 0x1, 0x1,  0xF, 0x8, 0xF, 0x1, 0xF,  0xF, 0x8, 0xF, 0x9, 0xF,  0xF, 0x1, 0x2, 0x4, 0x4] ++
  [0xF, 0x9, 0xF, 0x9, 0xF,  0xF, 0x9, 0xF, 0x1, 0xF,  0xF, 0x9, 0xF, 0x9, 0x9,  0xE, 0x9, 0xE, 0x9, 0xE] ++
  [0xF, 0x8, 0x8, 0x8, 0xF,  0xE, 0x9, 0x9, 0x9, 0xE,  0xF, 0x8, 0xF, 0x8, 0xF,  0xF, 0x8, 0xF, 0x8, 0x8]

/-- The operands of an instruction are the fields of its word: `x` bits 11 to 8, `y` bits 7 to 4, `n` bits 3 to 0, `nn`
bits 7 to 0, `nnn` bits 11 to 0 (R61). -/
def OperandsOf (w : Half) : Instr → Prop
  | .cls | .ret => True
  | .jpAddr nnn | .callAddr nnn | .ldIAddr nnn | .jpV0Addr nnn => nnn.toNat = w.toNat % 4096
  | .seVxByte x nn | .sneVxByte x nn | .ldVxByte x nn | .addVxByte x nn | .rndVxByte x nn =>
      x.toNat = w.toNat / 256 % 16 ∧ nn.toNat = w.toNat % 256
  | .seVxVy x y | .sneVxVy x y | .ldVxVy x y | .orVxVy x y | .andVxVy x y | .xorVxVy x y | .addVxVy x y
  | .subVxVy x y | .subnVxVy x y | .shrVx x y | .shlVx x y =>
      x.toNat = w.toNat / 256 % 16 ∧ y.toNat = w.toNat / 16 % 16
  | .drwVxVyN x y n => x.toNat = w.toNat / 256 % 16 ∧ y.toNat = w.toNat / 16 % 16 ∧ n.toNat = w.toNat % 16
  | .skpVx x | .sknpVx x | .ldVxDT x | .ldDTVx x | .ldSTVx x | .addIVx x | .ldVxK x | .ldFVx x | .ldBVx x
  | .ldMemVx x | .ldVxMem x => x.toNat = w.toNat / 256 % 16

end Sys2Proof.Spec

open Sys2Proof.Spec

/-! ## Encoding -/

/-- Decoding an encoded instruction gives it back, every operand at every value (R41, R60, R64, R65). -/
def Obligations.DecodeOfEncode : Prop :=
  ∀ (i : Instr) (rest : List Byte), decode (encodeBytes i ++ rest) = .ok (i, rest)

/-- A word that decodes is the encoding of what it decodes to: no two words mean one instruction (R61, R64). -/
def Obligations.EncodeOfDecode : Prop :=
  ∀ (w : Half) (i : Instr), decodeWord w = some i → encode i = w

/-- R64: a word is the instruction of the row whose mask and match it meets, and no word meets two rows. -/
def Obligations.DecoderAgreesWithOpcodeTable : Prop :=
  opcodeTable.length = 34 ∧
  (∀ (w : Half) (i : Instr), decodeWord w = some i →
    ∃ row ∈ opcodeTable, row.mnemonic = i.mnemonic ∧ w &&& row.mask = row.pattern) ∧
  (∀ (w : Half) (row : OpcodeRow), row ∈ opcodeTable → w &&& row.mask = row.pattern →
    ∃ i, decodeWord w = some i ∧ i.mnemonic = row.mnemonic) ∧
  (∀ (w : Half) (row row' : OpcodeRow), row ∈ opcodeTable → row' ∈ opcodeTable →
    w &&& row.mask = row.pattern → w &&& row'.mask = row'.pattern → row = row')

/-- R61, R64: which bits of the word each operand is. With the statement before, this says all of what a word decodes to. -/
def Obligations.OperandsAreTheFields : Prop :=
  ∀ (w : Half) (i : Instr), decodeWord w = some i → OperandsOf w i

/-- R66: the illegal words, class by class, each field read as a number. -/
def Obligations.IllegalWordsByClass : Prop :=
  ∀ w : Half, decodeWord w = none ↔
    (w.toNat / 4096 = 0x0 ∧ w.toNat ≠ 0x00E0 ∧ w.toNat ≠ 0x00EE) ∨
    (w.toNat / 4096 = 0x5 ∧ w.toNat % 16 ≠ 0) ∨
    (w.toNat / 4096 = 0x8 ∧ w.toNat % 16 ∈ [0x8, 0x9, 0xA, 0xB, 0xC, 0xD, 0xF]) ∨
    (w.toNat / 4096 = 0x9 ∧ w.toNat % 16 ≠ 0) ∨
    (w.toNat / 4096 = 0xE ∧ w.toNat % 256 ∉ [0x9E, 0xA1]) ∨
    (w.toNat / 4096 = 0xF ∧ w.toNat % 256 ∉ [0x07, 0x0A, 0x15, 0x18, 0x1E, 0x29, 0x33, 0x55, 0x65])

/-- R68: the source's own two literals, and a word of each family written out from R64. -/
def Obligations.WordsOfTheSpecDecode : Prop :=
  decodeWord 0x8004 = some (.addVxVy 0 0) ∧ decodeWord 0xFFFF = none ∧
  decodeWord 0x00E0 = some .cls ∧ decodeWord 0x2ABC = some (.callAddr 0xABC) ∧
  decodeWord 0x6A7C = some (.ldVxByte 0xA 0x7C) ∧ decodeWord 0x8127 = some (.subnVxVy 1 2) ∧
  decodeWord 0xA2F0 = some (.ldIAddr 0x2F0) ∧ decodeWord 0xD125 = some (.drwVxVyN 1 2 5) ∧
  decodeWord 0xE29E = some (.skpVx 2) ∧ decodeWord 0xF365 = some (.ldVxMem 3)

/-! ## Step -/

/-- R80: the mode dispatch, the fetch at PC, the decode, and the execution of the instruction decoded. Exec does all the
rest: the model's step adds nothing around it. -/
def Obligations.StepRunsTheDecodedInstruction : Prop :=
  ∀ s : State,
    (∀ t, s.mode = .awaitingKey t → step s = awaitStep t s) ∧
    (s.mode = .running → decodeWord (wordAtPc s) = none → step s = .fault .illegalInstruction) ∧
    (∀ i, s.mode = .running → decodeWord (wordAtPc s) = some i → step s = exec i s)

/-- R151: an illegal word raises IllegalInstruction, a waiting Step never does, and the first Step after Reset does. -/
def Obligations.IllegalWordRaises : Prop :=
  (∀ s : State, s.mode = .running →
    (step s = .fault .illegalInstruction ↔ decodeWord (wordAtPc s) = none)) ∧
  (∀ (s : State) (t : Nibble), s.mode = .awaitingKey t → step s ≠ .fault .illegalInstruction) ∧
  (∀ s : State, s.mode = .running → wordAtPc s = 0x8004 → ∃ t, step s = .next t) ∧
  (∀ s : State, s.mode = .running → wordAtPc s = 0xFFFF → step s = .fault .illegalInstruction) ∧
  step State.reset = .fault .illegalInstruction

/-- R150, R158: exactly when a Step faults, and with which kind; in particular it never ends in LoadTooLarge, and no access
to memory, timer, key or display faults. -/
def Obligations.StepFaultsExactly : Prop :=
  ∀ (s : State) (f : Fault), step s = .fault f ↔
    s.mode = .running ∧
      ((decodeWord (wordAtPc s) = none ∧ f = .illegalInstruction) ∨
       ((∃ nnn, decodeWord (wordAtPc s) = some (.callAddr nnn)) ∧ s.sp.val = 16 ∧ f = .stackOverflow) ∨
       (decodeWord (wordAtPc s) = some .ret ∧ s.sp.val = 0 ∧ f = .stackUnderflow))

/-- R88: Step is defined on every state that meets R26, and its next state meets R26. -/
def Obligations.StepIsTotal : Prop :=
  ∀ s : State, s.i.toNat < 4096 →
    (∃ t, step s = .next t ∧ t.i.toNat < 4096 ∧ t.sp.val ≤ 16) ∨ (∃ f, step s = .fault f)

/-- From every state that meets the invariant, a Step leaves one that meets it: memory canonical, I below 4096 (R14, R26),
and a waiting machine at its `LD Vt,K` (R13). The canonical form is the model's own (log 4). -/
def Obligations.StepKeepsInvariant : Prop :=
  ∀ s t : State, Inv s → step s = .next t → Inv t

/-- The state after Reset meets the invariant. -/
def Obligations.ResetMeetsInvariant : Prop := Inv State.reset

/-- Every schedule of the host, of any operations in any order, keeps the invariant (R26: "after every operation"). -/
def Obligations.SchedulesKeepInvariant : Prop :=
  ∀ (ops : List HostOp) (s : State), Inv s → Inv (runOps ops s)

/-- R31: what no instruction, no waiting Step, no Tick and no SetKey changes. -/
def Obligations.AccessMatrix : Prop :=
  (∀ (i : Instr) (s t : State), exec i s = .next t →
    UnchangedExcept (matrixParts i) s t ∧ ∀ r, ¬ MatrixReg i r → getV t r = getV s r) ∧
  (∀ (w : Nibble) (s t : State), s.mode = .awaitingKey w → step s = .next t →
    UnchangedExcept [.v, .pc, .kp, .mode] s t ∧ ∀ r, r ≠ w → getV t r = getV s r) ∧
  (∀ s t : State, perform .tick s = .next t → UnchangedExcept [.dt, .st] s t) ∧
  (∀ (k : Nibble) (b : Bool) (s t : State), perform (.setKey k b) s = .next t → UnchangedExcept [.k] s t)

/-- R84: the one write of PC of every instruction that completes, and of the Step that ends a key wait. -/
def Obligations.PcUpdate : Prop :=
  (∀ (i : Instr) (s t : State), exec i s = .next t → PcRule i s t) ∧
  (∀ (w : Nibble) (s t : State), s.mode = .awaitingKey w → step s = .next t →
    (t.mode = .running → t.pc = s.pc + 2) ∧ (t.mode ≠ .running → t.pc = s.pc))

/-- R12: the six flag-writing instructions leave 0 or 1 in VF, and no other instruction changes VF unless it names it. -/
def Obligations.FlagWriters : Prop :=
  ∀ (i : Instr) (s t : State), exec i s = .next t →
    (WritesFlag i → getV t 15 = 0 ∨ getV t 15 = 1) ∧
    (¬ WritesFlag i → ¬ NamesVf i → getV t 15 = getV s 15)

/-- Which instructions change I (R126), the stack (R15, R16), the display (R133), the timers and the keys (R85), MODE (R19)
and the generator (R24): a Step that changes one of them ran one of the instructions named. -/
def Obligations.OnlyNamedInstructionsChange : Prop :=
  ∀ (s t : State), s.mode = .running → step s = .next t →
    (t.i ≠ s.i → (∃ a, decodeWord (wordAtPc s) = some (.ldIAddr a)) ∨
      (∃ x, decodeWord (wordAtPc s) = some (.addIVx x)) ∨ (∃ x, decodeWord (wordAtPc s) = some (.ldFVx x))) ∧
    (t.sp ≠ s.sp → (∃ a, decodeWord (wordAtPc s) = some (.callAddr a)) ∨ decodeWord (wordAtPc s) = some .ret) ∧
    (t.stack ≠ s.stack → ∃ a, decodeWord (wordAtPc s) = some (.callAddr a)) ∧
    (∀ r c, r < 32 → c < 64 → getPixel t.display r c ≠ getPixel s.display r c →
      decodeWord (wordAtPc s) = some .cls ∨ ∃ x y n, decodeWord (wordAtPc s) = some (.drwVxVyN x y n)) ∧
    (t.dt ≠ s.dt → ∃ x, decodeWord (wordAtPc s) = some (.ldDTVx x)) ∧
    (t.st ≠ s.st → ∃ x, decodeWord (wordAtPc s) = some (.ldSTVx x)) ∧
    t.k = s.k ∧
    (t.mode ≠ s.mode → ∃ x, decodeWord (wordAtPc s) = some (.ldVxK x)) ∧
    (t.rng ≠ s.rng → ∃ x b, decodeWord (wordAtPc s) = some (.rndVxByte x b))

/-! ## Display -/

/-- R130: CLS unsets every pixel and writes nothing else but PC. -/
def Obligations.ClsBlanksTheDisplay : Prop :=
  ∀ s : State, ∃ t, exec .cls s = .next t ∧
    (∀ r c, r < 32 → c < 64 → getPixel t.display r c = false) ∧ t.pc = s.pc + 2 ∧
    UnchangedExcept [.display, .pc] s t

/-- R132: every pixel is XORed with the sprite bit that lands on it, VF ends as the collision flag, coordinates are read
before VF is written, and `n = 0` draws nothing. -/
def Obligations.DrwDrawsTheSprite : Prop :=
  ∀ (x y n : Nibble) (s : State), ∃ t, exec (.drwVxVyN x y n) s = .next t ∧
    (∀ r c, r < 32 → c < 64 →
      (getPixel t.display r c = true ↔ ¬ (getPixel s.display r c = true ↔ SpriteSets s x y n r c))) ∧
    FlagIs (getV t 15) (Collides s t) ∧ (∀ r, r ≠ 15 → getV t r = getV s r) ∧ t.pc = s.pc + 2 ∧
    UnchangedExcept [.v, .display, .pc] s t

/-- A second draw with the same I, memory, coordinates and height restores the display (R133 (a)), and its VF is 1 exactly
when some set bit of the sprite landed on a pixel that was unset before the first draw (R132 applied twice; R133 (a) says "if
and only if the sprite has at least one 1 bit", which is so where the sprite's set bits land on unset pixels; log 12). -/
def Obligations.DrawTwiceRestoresTheDisplay : Prop :=
  ∀ (x y n : Nibble) (s t u : State), exec (.drwVxVyN x y n) s = .next t →
    u.display = t.display → u.i = s.i → (∀ a, memRead u a = memRead s a) →
    getV u x = getV s x → getV u y = getV s y →
    ∃ v, exec (.drwVxVyN x y n) u = .next v ∧
      (∀ r c, r < 32 → c < 64 → getPixel v.display r c = getPixel s.display r c) ∧
      FlagIs (getV v 15) (∃ r c, r < 32 ∧ c < 64 ∧ SpriteSets s x y n r c ∧ getPixel s.display r c = false)

/-- R133 (a) where no sprite bit of the first draw falls on a set pixel, that is where the first draw sets VF = 0: the second
identical draw restores the display and sets VF = 1 if and only if the sprite has at least one 1 bit. (In the other case
R133 (a) and R132 can part; log 12.) -/
def Obligations.SecondDrawAfterCleanDraw : Prop :=
  ∀ (x y n : Nibble) (s t u : State), exec (.drwVxVyN x y n) s = .next t → getV t 15 = 0 →
    u.display = t.display → u.i = s.i → (∀ a, memRead u a = memRead s a) →
    getV u x = getV s x → getV u y = getV s y →
    ∃ v, exec (.drwVxVyN x y n) u = .next v ∧
      (∀ r c, r < 32 → c < 64 → getPixel v.display r c = getPixel s.display r c) ∧
      FlagIs (getV v 15) (∃ j, j < n.toNat ∧ memRead s (s.i.toNat + j) ≠ 0)

/-- The VF clause of R133 (a) word for word: "the second sets VF = 1 if and only if the sprite has at least one 1 bit".
EXPECTED TO FAIL: a sprite bit that clears a set pixel in the first draw sets it again in the second, without a collision
under R132, which the model follows (log 12). -/
def Obligations.SecondDrawFlagMeansSpriteNotEmpty : Prop :=
  ∀ (x y n : Nibble) (s t u v : State), exec (.drwVxVyN x y n) s = .next t →
    u.display = t.display → u.i = s.i → (∀ a, memRead u a = memRead s a) →
    getV u x = getV s x → getV u y = getV s y → exec (.drwVxVyN x y n) u = .next v →
    (getV v 15 = 1 ↔ ∃ j, j < n.toNat ∧ memRead s (s.i.toNat + j) ≠ 0)

/-- R133 (e): coordinates count modulo 64 and modulo 32. -/
def Obligations.DrawCoordinatesWrap : Prop :=
  ∀ (x y n : Nibble) (s u : State), u.display = s.display → u.i = s.i → (∀ a, memRead u a = memRead s a) →
    (getV u x).toNat % 64 = (getV s x).toNat % 64 → (getV u y).toNat % 32 = (getV s y).toNat % 32 →
    ∃ t v, exec (.drwVxVyN x y n) s = .next t ∧ exec (.drwVxVyN x y n) u = .next v ∧
      (∀ r c, r < 32 → c < 64 → getPixel v.display r c = getPixel t.display r c) ∧ getV v 15 = getV t 15

/-- R22, R165: the snapshot in row-major order holds pixel `D[r][c]` at index `r*64 + c`, 2048 of them. -/
def Obligations.SnapshotIsRowMajor : Prop :=
  ∀ s : State, (displayPixels s).length = 2048 ∧
    ∀ r c, r < 32 → c < 64 → (displayPixels s)[r * 64 + c]? = some (getPixel s.display r c)

/-! ## Control transfer -/

/-- R90: RET with an entry on the stack; with none it faults. -/
def Obligations.RetPops : Prop :=
  ∀ s : State,
    (∀ h : s.sp.val ≠ 0, ∃ t, exec .ret s = .next t ∧ t.pc = s.stack[s.sp.val - 1]'(by omega) ∧
      t.sp.val + 1 = s.sp.val ∧ UnchangedExcept [.pc, .sp] s t) ∧
    (s.sp.val = 0 → exec .ret s = .fault .stackUnderflow)

/-- R91, R93: the jumps; the sum of JP V0,addr is not reduced modulo 4096. -/
def Obligations.JumpsSetPc : Prop :=
  ∀ (nnn : Addr) (s : State),
    (∃ t, exec (.jpAddr nnn) s = .next t ∧ t.pc.toNat = nnn.toNat ∧ UnchangedExcept [.pc] s t) ∧
    (∃ t, exec (.jpV0Addr nnn) s = .next t ∧ t.pc.toNat = nnn.toNat + (getV s 0).toNat ∧
      UnchangedExcept [.pc] s t)

/-- R92: CALL pushes the address of the instruction after it; with 16 entries on the stack it faults. -/
def Obligations.CallPushes : Prop :=
  ∀ (nnn : Addr) (s : State),
    (s.sp.val < 16 → ∃ t, exec (.callAddr nnn) s = .next t ∧ t.pc.toNat = nnn.toNat ∧
      t.sp.val = s.sp.val + 1 ∧
      (∀ (j : Nat) (h : j < 16), t.stack[j] = if j = s.sp.val then s.pc + 2 else s.stack[j]) ∧
      UnchangedExcept [.pc, .sp, .stack] s t) ∧
    (s.sp.val = 16 → exec (.callAddr nnn) s = .fault .stackOverflow)

/-- R92's property: a CALL followed by a RET, with anything between that leaves the stack as the CALL left it, resumes at the
instruction after the CALL with the stack's entries as they were. -/
def Obligations.RetResumesAfterCall : Prop :=
  ∀ (nnn : Addr) (s t u : State), s.sp.val < 16 → exec (.callAddr nnn) s = .next t →
    u.sp = t.sp → u.stack = t.stack →
    ∃ v, exec .ret u = .next v ∧ v.pc = s.pc + 2 ∧ v.sp = s.sp ∧
      ∀ (j : Nat) (h : j < 16), j < s.sp.val → v.stack[j] = s.stack[j]

/-- R94 to R98: the four register skips. -/
def Obligations.RegisterSkips : Prop :=
  ∀ (x y : Nibble) (nn : Byte) (s : State),
    Skips (.seVxByte x nn) s (getV s x = nn) ∧ Skips (.sneVxByte x nn) s (getV s x ≠ nn) ∧
    Skips (.seVxVy x y) s (getV s x = getV s y) ∧ Skips (.sneVxVy x y) s (getV s x ≠ getV s y)

/-! ## Register loads, arithmetic, logic, shifts, random -/

/-- R101, R103: the register loads. -/
def Obligations.RegisterLoads : Prop :=
  ∀ (x y : Nibble) (nn : Byte) (s : State),
    WritesReg (.ldVxByte x nn) s x nn ∧ WritesReg (.ldVxVy x y) s x (getV s y)

/-- R102: ADD Vx,byte wraps modulo 256 and writes no flag. -/
def Obligations.AddByteWraps : Prop :=
  ∀ (x : Nibble) (nn : Byte) (s : State),
    WritesReg (.addVxByte x nn) s x (BitVec.ofNat 8 (((getV s x).toNat + nn.toNat) % 256))

/-- R104 to R106: the logic operations, bit by bit, VF not written. -/
def Obligations.LogicOperations : Prop :=
  ∀ (x y : Nibble) (s : State),
    (∃ b : Byte, (∀ k, b.getLsbD k = ((getV s x).getLsbD k || (getV s y).getLsbD k)) ∧ WritesReg (.orVxVy x y) s x b) ∧
    (∃ b : Byte, (∀ k, b.getLsbD k = ((getV s x).getLsbD k && (getV s y).getLsbD k)) ∧ WritesReg (.andVxVy x y) s x b) ∧
    (∃ b : Byte, (∀ k, b.getLsbD k = ((getV s x).getLsbD k ^^ (getV s y).getLsbD k)) ∧ WritesReg (.xorVxVy x y) s x b)

/-- R107, R100: the sum modulo 256, VF the carry; with `x = 15` VF ends holding the carry. -/
def Obligations.AddSetsCarry : Prop :=
  ∀ (x y : Nibble) (s : State),
    WritesRegFlag (.addVxVy x y) s x (((getV s x).toNat + (getV s y).toNat) % 256)
      ((getV s x).toNat + (getV s y).toNat > 255)

/-- R108, R110, R100: the differences modulo 256, VF 1 when there is no borrow. -/
def Obligations.SubtractionsSetNoBorrow : Prop :=
  ∀ (x y : Nibble) (s : State),
    WritesRegFlag (.subVxVy x y) s x (((getV s x).toNat + 256 - (getV s y).toNat) % 256)
      ((getV s x).toNat ≥ (getV s y).toNat) ∧
    WritesRegFlag (.subnVxVy x y) s x (((getV s y).toNat + 256 - (getV s x).toNat) % 256)
      ((getV s y).toNat ≥ (getV s x).toNat)

/-- R109, R111, R100: Vx shifted by one in place whatever `y` is, VF the bit shifted out. -/
def Obligations.ShiftsSetBitOut : Prop :=
  ∀ (x y : Nibble) (s : State),
    WritesRegFlag (.shrVx x y) s x ((getV s x).toNat / 2) ((getV s x).toNat % 2 = 1) ∧
    WritesRegFlag (.shlVx x y) s x ((getV s x).toNat * 2 % 256) ((getV s x).toNat ≥ 128)

/-- R112: in every state there is one byte that RND masks, whichever register and mask it names; nothing is said of the
byte (a free value, log 1), so the result has no bit the mask lacks. -/
def Obligations.RndMasksAByte : Prop :=
  ∀ s : State, ∃ b : Byte, ∀ (x : Nibble) (nn : Byte), ∃ t, exec (.rndVxByte x nn) s = .next t ∧
    (∀ r, r ≠ x → getV t r = getV s r) ∧
    (∀ k, (getV t x).getLsbD k = (b.getLsbD k && nn.getLsbD k)) ∧ t.pc = s.pc + 2 ∧
    UnchangedExcept [.v, .rng, .pc] s t

/-! ## Address register and memory transfers -/

/-- R120, R121, R122: the three instructions that set I; none writes a flag. -/
def Obligations.AddressRegisterWrites : Prop :=
  ∀ (x : Nibble) (nnn : Addr) (s : State),
    (∃ t, exec (.ldIAddr nnn) s = .next t ∧ t.i.toNat = nnn.toNat ∧ t.pc = s.pc + 2 ∧
      UnchangedExcept [.i, .pc] s t) ∧
    (∃ t, exec (.addIVx x) s = .next t ∧ t.i.toNat = (s.i.toNat + (getV s x).toNat) % 4096 ∧ t.pc = s.pc + 2 ∧
      UnchangedExcept [.i, .pc] s t) ∧
    (∃ t, exec (.ldFVx x) s = .next t ∧ t.i.toNat = 5 * ((getV s x).toNat % 16) ∧ t.pc = s.pc + 2 ∧
      UnchangedExcept [.i, .pc] s t)

/-- R123: LD B,Vx stores the three decimal digits from `M[I]` on, each address wrapped on its own, and no other byte. -/
def Obligations.LdBStoresDigits : Prop :=
  ∀ (x : Nibble) (s : State), ∃ t, exec (.ldBVx x) s = .next t ∧
    (memRead t (effAddr s 0)).toNat = (getV s x).toNat / 100 ∧
    (memRead t (effAddr s 1)).toNat = (getV s x).toNat / 10 % 10 ∧
    (memRead t (effAddr s 2)).toNat = (getV s x).toNat % 10 ∧
    (∀ a, a < 4096 → (∀ j, j < 3 → a ≠ effAddr s j) → memRead t a = memRead s a) ∧ t.pc = s.pc + 2 ∧
    UnchangedExcept [.mem, .pc] s t

/-- R124: LD [I],Vx stores `V[j]` at `(I + j) mod 4096` for `j` from 0 to `x`, and no other byte; I is unchanged. -/
def Obligations.LdMemStoresRegisters : Prop :=
  ∀ (x : Nibble) (s : State), ∃ t, exec (.ldMemVx x) s = .next t ∧
    (∀ j : Nibble, j.toNat ≤ x.toNat → memRead t (effAddr s j.toNat) = getV s j) ∧
    (∀ a, a < 4096 → (∀ j, j ≤ x.toNat → a ≠ effAddr s j) → memRead t a = memRead s a) ∧ t.pc = s.pc + 2 ∧
    UnchangedExcept [.mem, .pc] s t

/-- R125: LD Vx,[I] loads `V[j]` from `M[(I + j) mod 4096]` for `j` from 0 to `x`, and no other register. -/
def Obligations.LdVxMemLoadsRegisters : Prop :=
  ∀ (x : Nibble) (s : State), ∃ t, exec (.ldVxMem x) s = .next t ∧
    (∀ j : Nibble, getV t j = if j.toNat ≤ x.toNat then memRead s ((s.i.toNat + j.toNat) % 4096) else getV s j) ∧
    t.pc = s.pc + 2 ∧ UnchangedExcept [.v, .pc] s t

/-- R126: the effective address is I plus the offset, modulo 4096, whatever I holds. -/
def Obligations.EffectiveAddressWraps : Prop :=
  ∀ (s : State) (j : Nat), effAddr s j = (s.i.toNat + j) % 4096 ∧ memRead s (effAddr s j) = memRead s (s.i.toNat + j)

/-- R124, R125: the registers stored are the registers loaded back. -/
def Obligations.StoreThenLoadReturnsRegisters : Prop :=
  ∀ (x : Nibble) (s t u : State), exec (.ldMemVx x) s = .next t → u.i = t.i → (∀ a, memRead u a = memRead t a) →
    ∃ v, exec (.ldVxMem x) u = .next v ∧ ∀ j : Nibble, j.toNat ≤ x.toNat → getV v j = getV s j

/-- R52: the word stored at the next PC by LD [I],Vx is the word the next Step fetches. -/
def Obligations.StoreIsSeenByNextFetch : Prop :=
  ∀ (x : Nibble) (i : Instr) (s t : State), s.mode = .running → 1 ≤ x.toNat →
    s.i.toNat % 4096 = (s.pc + 2).toNat % 4096 → exec (.ldMemVx x) s = .next t →
    decodeWord (BitVec.ofNat 16 (256 * (getV s 0).toNat + (getV s 1).toNat)) = some i →
    step t = exec i t

/-! ## Timers and keys -/

/-- R140, R141, R142: the copies between a register and a timer. -/
def Obligations.TimerTransfers : Prop :=
  ∀ (x : Nibble) (s : State),
    WritesReg (.ldVxDT x) s x s.dt ∧
    (∃ t, exec (.ldDTVx x) s = .next t ∧ t.dt = getV s x ∧ t.pc = s.pc + 2 ∧ UnchangedExcept [.dt, .pc] s t) ∧
    (∃ t, exec (.ldSTVx x) s = .next t ∧ t.st = getV s x ∧ t.pc = s.pc + 2 ∧ UnchangedExcept [.st, .pc] s t)

/-- R143, R144: the key skips; the key is the low nibble of Vx. -/
def Obligations.KeySkips : Prop :=
  ∀ (x : Nibble) (s : State),
    Skips (.skpVx x) s (getKey s.k (BitVec.ofNat 4 ((getV s x).toNat % 16)) = true) ∧
    Skips (.sknpVx x) s (getKey s.k (BitVec.ofNat 4 ((getV s x).toNat % 16)) = false)

/-- R145: LD Vx,K enters the wait with a snapshot of the latch; PC stays, no register is written. -/
def Obligations.LdKeyEntersTheWait : Prop :=
  ∀ (x : Nibble) (s : State), ∃ t, exec (.ldVxK x) s = .next t ∧ t.mode = .awaitingKey x ∧
    (∀ k, getKey t.kp k = getKey s.k k) ∧ UnchangedExcept [.kp, .mode] s t

/-- R146: the Step while waiting: the lowest newly pressed key ends the wait, and without one only the snapshot changes. -/
def Obligations.WaitingStep : Prop :=
  ∀ (w : Nibble) (s : State), s.mode = .awaitingKey w →
    ((∀ k, ¬ NewKey s k) → ∃ t, step s = .next t ∧ (∀ k, getKey t.kp k = getKey s.k k) ∧
      UnchangedExcept [.kp] s t) ∧
    (∀ k, NewKey s k → (∀ j, j.toNat < k.toNat → ¬ NewKey s j) → ∃ t, step s = .next t ∧
      (∀ r, r ≠ w → getV t r = getV s r) ∧ (getV t w).toNat = k.toNat ∧ t.pc = s.pc + 2 ∧ t.mode = .running ∧
      (∀ j, getKey t.kp j = getKey s.k j) ∧ UnchangedExcept [.v, .pc, .mode, .kp] s t)

/-- R146's property: while no key is pressed that was not at the previous check, any number of Steps leave everything but
the snapshot as it was. -/
def Obligations.WaitHoldsWithoutNewKey : Prop :=
  ∀ (w : Nibble) (s : State) (n : Nat), s.mode = .awaitingKey w → (∀ k, ¬ NewKey s k) →
    UnchangedExcept [.kp] s (runOps (List.replicate n .step) s)

/-- R147: the state machine of the key wait, its table row by row. -/
def Obligations.KeyWaitStateMachine : Prop :=
  (∀ s t : State, s.mode = .running → step s = .next t →
    (∀ x, decodeWord (wordAtPc s) = some (.ldVxK x) → t.mode = .awaitingKey x) ∧
    ((∀ x, decodeWord (wordAtPc s) ≠ some (.ldVxK x)) → t.mode = .running)) ∧
  (∀ (w : Nibble) (s t : State), s.mode = .awaitingKey w → step s = .next t →
    ((∃ k, NewKey s k) → t.mode = .running) ∧ ((∀ k, ¬ NewKey s k) → t.mode = .awaitingKey w)) ∧
  (∀ s : State, (after s .tick).mode = s.mode) ∧
  (∀ (k : Nibble) (b : Bool) (s : State), (after s (.setKey k b)).mode = s.mode) ∧
  (∀ s : State, (after s .reset).mode = .running) ∧
  (∀ (bytes : List Byte) (s t : State), perform (.load bytes) s = .next t → t.mode = .running)

/-! ## What no instruction reads -/

/-- R17: no instruction reads ST: with another ST an instruction ends the same way, in a state that differs in ST alone, and
only where the instruction did not write it. -/
def Obligations.SoundTimerIsNotRead : Prop :=
  ∀ (i : Instr) (s : State) (b : Byte),
    (∃ t u, exec i s = .next t ∧ exec i { s with st := b } = .next u ∧ u = { t with st := u.st } ∧
      (u.st = t.st ∨ (t.st = s.st ∧ u.st = b))) ∨
    (∃ f, exec i s = .fault f ∧ exec i { s with st := b } = .fault f)

/-- R23: while MODE is Running, the value of KP is dead: with another KP a Step ends the same way, in a state that differs in
KP alone, and only where the Step did not overwrite it. -/
def Obligations.SnapshotIsDeadWhileRunning : Prop :=
  ∀ (s : State) (q : Keys), s.mode = .running →
    (∃ t u, step s = .next t ∧ step { s with kp := q } = .next u ∧ u = { t with kp := u.kp } ∧
      (u.kp = t.kp ∨ (t.kp = s.kp ∧ u.kp = q ∧ u.mode = .running))) ∨
    (∃ f, step s = .fault f ∧ step { s with kp := q } = .fault f)

/-! ## Host operations and faults -/

/-- R160, R161: Tick decrements each nonzero timer, in every mode, and changes nothing else. -/
def Obligations.TickCountsDown : Prop :=
  ∀ s : State, ∃ t, perform .tick s = .next t ∧ t.dt.toNat = s.dt.toNat - 1 ∧ t.st.toNat = s.st.toNat - 1 ∧
    UnchangedExcept [.dt, .st] s t

/-- R160's property: after any number of Ticks each timer holds what is left, and 0 once it has run out. -/
def Obligations.TicksRunTimersToZero : Prop :=
  ∀ (n : Nat) (s : State), (runOps (List.replicate n .tick) s).dt.toNat = s.dt.toNat - n ∧
    (runOps (List.replicate n .tick) s).st.toNat = s.st.toNat - n

/-- R163: SetKey writes one key of the latch and nothing else. -/
def Obligations.SetKeyWritesTheLatch : Prop :=
  ∀ (k : Nibble) (b : Bool) (s : State), ∃ t, perform (.setKey k b) s = .next t ∧
    (∀ j, getKey t.k j = if j = k then b else getKey s.k j) ∧ UnchangedExcept [.k] s t

/-- R30, R180: what Reset leaves, from any state; the generator's seed is the model's choice (log 2) and is not stated. -/
def Obligations.ResetLeaves : Prop :=
  ∀ s : State, ∃ t, perform .reset s = .next t ∧ (∀ r, getV t r = 0x00) ∧ t.i = 0x0000 ∧ t.pc = 0x0200 ∧
    t.sp.val = 0 ∧ (∀ (j : Nat) (h : j < 16), t.stack[j] = 0x0000) ∧
    (∀ r c, r < 32 → c < 64 → getPixel t.display r c = false) ∧ t.dt = 0x00 ∧ t.st = 0x00 ∧
    (∀ k, getKey t.k k = false) ∧ (∀ k, getKey t.kp k = false) ∧ t.mode = .running ∧
    (∀ a, a < 80 → memRead t a = BitVec.ofNat 8 (16 * glyphRows.getD a 0)) ∧
    (∀ a, 80 ≤ a → a < 4096 → memRead t a = 0x00)

/-- R183: Load of at most 3584 bytes resets and copies them to 0x200; of more it faults and changes nothing. -/
def Obligations.LoadCopiesTheProgram : Prop :=
  ∀ (bytes : List Byte) (s : State),
    (bytes.length ≤ 3584 → ∃ t, perform (.load bytes) s = .next t ∧
      (∀ (j : Nat) (h : j < bytes.length), memRead t (0x200 + j) = bytes[j]) ∧
      (∀ a, a < 4096 → (a < 0x200 ∨ 0x200 + bytes.length ≤ a) → memRead t a = memRead State.reset a) ∧
      UnchangedExcept [.mem] State.reset t) ∧
    (bytes.length > 3584 → perform (.load bytes) s = .fault .loadTooLarge ∧ after s (.load bytes) = s)

/-- R156: a Step that faulted faults again in the same way after any number of Steps, Ticks and SetKeys. -/
def Obligations.FaultRepeatsUntilResetOrLoad : Prop :=
  ∀ (ops : List HostOp) (s : State) (f : Fault), step s = .fault f →
    (∀ op ∈ ops, op = .step ∨ op = .tick ∨ ∃ k b, op = .setKey k b) → step (runOps ops s) = .fault f

/-- R172: one clock of the port-level reading performs the one operation whose pin is asserted, Load's pins apart, and the
outputs show the state it leaves; two operations asked for have no transition (R170), and no pin asserted changes nothing.
The model's choices (log 11): `ld_start` and `ld_we` ask for one operation, Load; another operation ends a Load; the outputs
show the state after the clock, not before it. -/
def Obligations.ClockPerformsOneOperation : Prop :=
  ∀ (p : PortIn) (s : PortState),
    (assertedOps p > 1 → clock p s = none) ∧
    (assertedOps p = 0 → ∃ o, clock p s = some (s, o)) ∧
    (assertedOps p = 1 → p.rst = true → ∃ o, clock p s = some (⟨after s.core .reset, none⟩, o)) ∧
    (assertedOps p = 1 → p.tick = true → ∃ o, clock p s = some (⟨after s.core .tick, none⟩, o)) ∧
    (assertedOps p = 1 → p.keyWe = true →
      ∃ o, clock p s = some (⟨after s.core (.setKey p.keyIdx p.keyVal), none⟩, o)) ∧
    (assertedOps p = 1 → p.step = true →
      (∀ x nn, s.core.mode = .running → decodeWord (wordAtPc s.core) ≠ some (.rndVxByte x nn)) →
      ∃ o, clock p s = some (⟨after s.core .step, none⟩, o) ∧ o.result = resultCode (perform .step s.core)) ∧
    (assertedOps p = 1 → p.step = true → ∀ x nn, s.core.mode = .running →
      decodeWord (wordAtPc s.core) = some (.rndVxByte x nn) →
      ∃ t o, clock p s = some (⟨t, none⟩, o) ∧ o.result = some 0 ∧ t.pc = s.core.pc + 2 ∧
        (∀ r, getV t r = if r = x then p.rndIn &&& nn else getV s.core r) ∧ UnchangedExcept [.v, .pc] s.core t) ∧
    (∀ t o, clock p s = some (t, o) →
      (o.awaiting = true ↔ t.core.mode ≠ .running) ∧ o.st = t.core.st ∧ (o.soundActive = true ↔ t.core.st ≠ 0) ∧
      o.dPix = getPixel t.core.display p.dRow.toNat p.dCol.toNat)

/-- R172, R183: a Load at the pins, `ld_start` and then a byte a clock at 0x200 upward, leaves the state the operation Load
leaves and ends with its result code, LoadTooLarge among them, whatever was before it. The model's choice (log 11): Load's
pins are one operation over several clocks. -/
def Obligations.LoadPinsPerformLoad : Prop :=
  ∀ (bytes : List Byte) (s : PortState), ∃ t o, clocks startPins (bytePins 0 bytes) s = some (t, o) ∧
    t.core = after s.core (.load bytes) ∧ o.result = resultCode (perform (.load bytes) s.core)

/-- R53: the pins give the host no write to memory outside a Load: a clock that changes a byte performs Reset, Step, or a
Load that begins in it or is under way, and the byte a Load writes is the next. That there is no transition otherwise is the
model's choice (log 11). -/
def Obligations.LoadPinsWriteOnlyInALoad : Prop :=
  ∀ (p : PortIn) (s t : PortState) (o : PortOut), clock p s = some (t, o) →
    (∀ a, p.rst = false → p.step = false → memRead t.core a ≠ memRead s.core a →
      p.ldStart = true ∨ (p.ldWe = true ∧ ∃ l, s.load = some l ∧ p.ldAddr.toNat = (0x200 + l.written) % 4096)) ∧
    (p.ldWe = true → p.ldStart = false → s.load ≠ none)
end

