-- ==== Sys2Proof/Laws/Encoding.lean ====
section
/-! SUPPORT. The fields and the bytes of a word put together from its parts (R41, R61). -/

namespace Sys2Proof

/-- The low part of two parts put together. -/
theorem extract_append_low {m n : Nat} (a : BitVec m) (b : BitVec n) : (a ++ b).extractLsb' 0 n = b := by
  ext i hi; simp [BitVec.getLsbD_append, hi]

/-- A field that lies in the high part. -/
theorem extract_append_high {m n : Nat} (a : BitVec m) (b : BitVec n) (s w : Nat) :
    (a ++ b).extractLsb' (n + s) w = a.extractLsb' s w := by
  ext i hi
  have h : ¬ n + s + i < n := by omega
  have h' : n + s + i - n = s + i := by omega
  simp [BitVec.getLsbD_append, h, h']

/-- A field that lies in the low part. -/
theorem extract_append_in_low {m n : Nat} (a : BitVec m) (b : BitVec n) (s w : Nat) (hw : s + w ≤ n) :
    (a ++ b).extractLsb' s w = b.extractLsb' s w := by
  ext i hi
  have h : s + i < n := by omega
  simp [BitVec.getLsbD_append, h]

theorem extract_all {n : Nat} (b : BitVec n) : b.extractLsb' 0 n = b := by ext i hi; simp

/-! ## A word with an address field: `c nnn` -/

@[simp] theorem fieldClass_nnn (c : Nibble) (a : Addr) : fieldClass (c ++ a) = c :=
  (extract_append_high c a 0 4).trans (extract_all c)

@[simp] theorem fieldNNN_nnn (c : Nibble) (a : Addr) : fieldNNN (c ++ a) = a := extract_append_low c a

/-! ## A word with a register and a byte: `c x nn` -/

@[simp] theorem fieldClass_xnn (c x : Nibble) (b : Byte) : fieldClass (c ++ x ++ b) = c :=
  (extract_append_high (c ++ x) b 4 4).trans ((extract_append_high c x 0 4).trans (extract_all c))

@[simp] theorem fieldX_xnn (c x : Nibble) (b : Byte) : fieldX (c ++ x ++ b) = x :=
  (extract_append_high (c ++ x) b 0 4).trans (extract_append_low c x)

@[simp] theorem fieldNN_xnn (c x : Nibble) (b : Byte) : fieldNN (c ++ x ++ b) = b := extract_append_low (c ++ x) b

/-! ## A word of four nibbles: `c x y n` -/

@[simp] theorem fieldClass_xyn (c x y n : Nibble) : fieldClass (c ++ x ++ y ++ n) = c :=
  (extract_append_high (c ++ x ++ y) n 8 4).trans
    ((extract_append_high (c ++ x) y 4 4).trans ((extract_append_high c x 0 4).trans (extract_all c)))

@[simp] theorem fieldX_xyn (c x y n : Nibble) : fieldX (c ++ x ++ y ++ n) = x :=
  (extract_append_high (c ++ x ++ y) n 4 4).trans
    ((extract_append_high (c ++ x) y 0 4).trans (extract_append_low c x))

@[simp] theorem fieldY_xyn (c x y n : Nibble) : fieldY (c ++ x ++ y ++ n) = y :=
  (extract_append_high (c ++ x ++ y) n 0 4).trans (extract_append_low (c ++ x) y)

@[simp] theorem fieldN_xyn (c x y n : Nibble) : fieldN (c ++ x ++ y ++ n) = n := extract_append_low (c ++ x ++ y) n

theorem fieldN_xnn (c x : Nibble) (b : Byte) : fieldN (c ++ x ++ b) = b.extractLsb' 0 4 :=
  extract_append_in_low (c ++ x) b 0 4 (by decide)

theorem fieldNN_xyn (c x y n : Nibble) : fieldNN (c ++ x ++ y ++ n) = y ++ n := by
  have h : c ++ x ++ y ++ n = (c ++ x) ++ (y ++ n) := BitVec.append_assoc
  rw [h]; exact extract_append_low (c ++ x) (y ++ n)

/-! ## A word is made of its fields (R61: "the fields overlap") -/

theorem word_nnn (w : Half) : w = fieldClass w ++ fieldNNN w := by
  refine BitVec.eq_of_getLsbD_eq (fun i hi => ?_)
  rw [BitVec.getLsbD_append]
  unfold fieldClass fieldNNN
  interval_cases i <;> simp

theorem word_xnn (w : Half) : w = fieldClass w ++ fieldX w ++ fieldNN w := by
  refine BitVec.eq_of_getLsbD_eq (fun i hi => ?_)
  rw [BitVec.getLsbD_append, BitVec.getLsbD_append]
  unfold fieldClass fieldX fieldNN
  interval_cases i <;> simp

theorem word_xyn (w : Half) : w = fieldClass w ++ fieldX w ++ fieldY w ++ fieldN w := by
  refine BitVec.eq_of_getLsbD_eq (fun i hi => ?_)
  rw [BitVec.getLsbD_append, BitVec.getLsbD_append, BitVec.getLsbD_append]
  unfold fieldClass fieldX fieldY fieldN
  interval_cases i <;> simp

/-! ## The masks of the opcode table (R64) -/

theorem and_classMask (w : Half) : w &&& 0xF000 = fieldClass w ++ 0#12 := by
  refine BitVec.eq_of_getLsbD_eq (fun i hi => ?_)
  rw [BitVec.getLsbD_append]
  unfold fieldClass
  interval_cases i <;> simp

theorem and_classNMask (w : Half) : w &&& 0xF00F = fieldClass w ++ 0#8 ++ fieldN w := by
  refine BitVec.eq_of_getLsbD_eq (fun i hi => ?_)
  rw [BitVec.getLsbD_append, BitVec.getLsbD_append]
  unfold fieldClass fieldN
  interval_cases i <;> simp

theorem and_classNNMask (w : Half) : w &&& 0xF0FF = fieldClass w ++ 0#4 ++ fieldNN w := by
  refine BitVec.eq_of_getLsbD_eq (fun i hi => ?_)
  rw [BitVec.getLsbD_append, BitVec.getLsbD_append]
  unfold fieldClass fieldNN
  interval_cases i <;> simp

/-! ## Bytes -/

@[simp] theorem highByte_joinBytes (hi lo : Byte) : highByte (joinBytes hi lo) = hi :=
  (extract_append_high hi lo 0 8).trans (extract_all hi)

@[simp] theorem lowByte_joinBytes (hi lo : Byte) : lowByte (joinBytes hi lo) = lo := extract_append_low hi lo

@[simp] theorem joinBytes_bytes (w : Half) : joinBytes (highByte w) (lowByte w) = w := by
  unfold joinBytes highByte lowByte
  refine BitVec.eq_of_getLsbD_eq (fun i hi => ?_)
  rw [BitVec.getLsbD_append]
  split
  · rename_i h; simp [h]
  · have h : i - 8 < 8 := by omega
    have h' : 8 + (i - 8) = i := by omega
    simp [h, h']

/-- A word as a number: the byte at the lower address counts 256 (R41). -/
theorem joinBytes_eq_ofNat (hi lo : Byte) : joinBytes hi lo = BitVec.ofNat 16 (256 * hi.toNat + lo.toNat) := by
  apply BitVec.eq_of_toNat_eq
  have hh := hi.isLt
  have hl := lo.isLt
  have happ : (joinBytes hi lo).toNat = hi.toNat <<< 8 ||| lo.toNat := BitVec.toNat_append hi lo
  rw [happ, Nat.shiftLeft_eq, BitVec.toNat_ofNat, Nat.mul_comm, ← Nat.two_pow_add_eq_or_of_lt (i := 8) hl]
  omega

/-- What the decoder reads from the bytes of a word. -/
theorem decode_wordBytes (w : Half) (rest : List Byte) :
    decode (wordBytes w ++ rest) =
      match decodeWord w with
      | some i => .ok (i, rest)
      | none => .error (.illegal w) := by
  cases h : decodeWord w <;> simp [wordBytes, decode, h]

end Sys2Proof
end

