-- ==== Sys2Proof/Laws/Frame.lean ====
section
/-! SUPPORT. How the frame predicate composes. -/

namespace Sys2Proof.Machine

theorem UnchangedExcept.refl (ps : List Part) (s : State) : UnchangedExcept ps s s := by simp [UnchangedExcept]

/-- One field's clause composes. -/
theorem unchanged_trans {α : Type} {m : Prop} {a b c : α} (h : m ∨ b = a) (h' : m ∨ c = b) : m ∨ c = a :=
  h.elim .inl fun e => h'.elim .inl fun e' => .inr (e'.trans e)

/-- The clause of a field read at every index composes. -/
theorem unchanged_trans_at {ι α : Type} {m : Prop} {a b c : ι → α} (h : m ∨ ∀ i, b i = a i) (h' : m ∨ ∀ i, c i = b i) :
    m ∨ ∀ i, c i = a i :=
  h.elim .inl fun e => h'.elim .inl fun e' => .inr fun i => (e' i).trans (e i)

/-- What two operations in a row both leave unchanged. -/
theorem UnchangedExcept.trans {ps : List Part} {s t u : State} (h : UnchangedExcept ps s t)
    (h' : UnchangedExcept ps t u) : UnchangedExcept ps s u := by
  obtain ⟨h1, h2, h3, h4, h5, h6, h7, h8, h9, h10, h11, h12, h13⟩ := h
  obtain ⟨k1, k2, k3, k4, k5, k6, k7, k8, k9, k10, k11, k12, k13⟩ := h'
  exact ⟨unchanged_trans_at h1 k1, unchanged_trans h2 k2, unchanged_trans h3 k3, unchanged_trans h4 k4,
    unchanged_trans h5 k5, unchanged_trans_at h6 k6,
    h7.elim .inl fun e => k7.elim .inl fun e' => .inr fun r c => (e' r c).trans (e r c),
    unchanged_trans h8 k8, unchanged_trans h9 k9, unchanged_trans h10 k10, unchanged_trans h11 k11,
    unchanged_trans h12 k12, unchanged_trans h13 k13⟩

end Sys2Proof.Machine
end

