-- ==== Sys2Proof/Laws/Memory.lean ====
section
/-! SUPPORT. Memory: what a read gives after a write, and that every operation keeps the canonical form. -/

namespace Sys2Proof.Machine

theorem Memory.mem_insert (c d : Host.Cell) (m : Memory) : d ∈ Memory.insert c m ↔ d = c ∨ d ∈ m := by
  induction m with
  | nil => simp [Memory.insert]
  | cons e m ih =>
    simp only [Memory.insert]
    split
    · simp
    · simp only [List.mem_cons, ih]; tauto

/-- Looking up another address passes over an inserted cell. -/
theorem Memory.find_insert_ne (c : Host.Cell) (m : Memory) (a : Nat) (h : c.1 ≠ a) :
    (Memory.insert c m).find? (fun d => d.1 == a) = m.find? (fun d => d.1 == a) := by
  induction m with
  | nil => simp [Memory.insert, h]
  | cons e m ih =>
    simp only [Memory.insert]
    split
    · simp [h]
    · simp only [List.find?_cons, ih]

/-- Looking up an inserted cell's own address finds it, where no other cell has that address. -/
theorem Memory.find_insert_self (c : Host.Cell) (m : Memory) (h : ∀ d ∈ m, d.1 ≠ c.1) :
    (Memory.insert c m).find? (fun d => d.1 == c.1) = some c := by
  induction m with
  | nil => simp [Memory.insert]
  | cons e m ih =>
    simp only [Memory.insert]
    split
    · simp
    · have he : e.1 ≠ c.1 := h e (by simp)
      simp [he, ih (fun d hd => h d (by simp [hd]))]

/-- Removing an address's cells does not touch another address. -/
theorem Memory.find_filter_ne (m : Memory) (a a' : Nat) (h : a' ≠ a) :
    (m.filter (fun c => c.1 != a)).find? (fun d => d.1 == a') = m.find? (fun d => d.1 == a') := by
  induction m with
  | nil => rfl
  | cons e m ih =>
    by_cases he : e.1 = a
    · simp [he, ih, Ne.symm h]
    · simp [he, List.find?_cons, ih]

theorem Memory.find_filter_self (m : Memory) (a : Nat) :
    (m.filter (fun c => c.1 != a)).find? (fun d => d.1 == a) = none := by
  simp [List.find?_eq_none]

/-- A read after a write: the byte written at its address, every other address as before. -/
theorem Memory.read_write (m : Memory) (a a' : Nat) (b : Byte) :
    Memory.read (Memory.write m a b) a' = if a' = a then b else Memory.read m a' := by
  unfold Memory.read Memory.write
  by_cases h : a' = a
  · subst h
    by_cases hb : b = Memory.unlisted a'
    · rw [if_pos hb, Memory.find_filter_self, if_pos rfl, hb]
    · have := Memory.find_insert_self (a', b) (m.filter (fun c => c.1 != a')) (by simp)
      simp only at this
      simp [hb, this]
  · by_cases hb : b = Memory.unlisted a
    · simp [hb, h, Memory.find_filter_ne m a a' h]
    · simp [hb, h, Memory.find_insert_ne (a, b) _ a' (Ne.symm h), Memory.find_filter_ne m a a' h]

theorem Memory.insert_sorted (c : Host.Cell) (m : Memory) (hs : m.Pairwise (fun c d => c.1 < d.1))
    (h : ∀ d ∈ m, d.1 ≠ c.1) : (Memory.insert c m).Pairwise (fun c d => c.1 < d.1) := by
  induction m with
  | nil => simp [Memory.insert]
  | cons e m ih =>
    rw [List.pairwise_cons] at hs
    simp only [Memory.insert]
    split
    · rename_i hlt
      simp only [List.pairwise_cons]
      refine ⟨fun d hd => ?_, hs.1, hs.2⟩
      rcases List.mem_cons.mp hd with rfl | hd
      · exact hlt
      · exact Nat.lt_trans hlt (hs.1 d hd)
    · rename_i hlt
      have hne : e.1 ≠ c.1 := h e (by simp)
      simp only [List.pairwise_cons]
      refine ⟨fun d hd => ?_, ih hs.2 (fun d hd => h d (by simp [hd]))⟩
      rcases (Memory.mem_insert c d m).mp hd with rfl | hd
      · omega
      · exact hs.1 d hd

/-- A write to an address that exists keeps the canonical form. -/
theorem Memory.write_wf (m : Memory) (a : Nat) (b : Byte) (hm : Memory.wf m) (ha : a < Config.memSize) :
    Memory.wf (Memory.write m a b) := by
  unfold Memory.write
  have hf : Memory.wf (m.filter (fun c => c.1 != a)) :=
    ⟨hm.1.filter _, fun c hc => hm.2 c (List.mem_filter.mp hc).1⟩
  split
  · exact hf
  · rename_i hb
    refine ⟨Memory.insert_sorted _ _ hf.1 (by simp), fun c hc => ?_⟩
    rcases (Memory.mem_insert _ c _).mp hc with rfl | hc
    · exact ⟨ha, hb⟩
    · exact hf.2 c hc

/-- A run of writes below 4096 keeps the canonical form. -/
theorem Memory.writeAll_wf (bs : List Byte) (m : Memory) (a : Nat) (hm : Memory.wf m)
    (ha : a + bs.length ≤ Config.memSize) : Memory.wf (Memory.writeAll m a bs) := by
  induction bs generalizing m a with
  | nil => exact hm
  | cons b bs ih =>
    simp only [List.length_cons] at ha
    exact ih _ _ (Memory.write_wf m a b hm (by omega)) (by omega)

/-- A read after a run of writes: byte `j` of the run at `a + j`, every other address as before. -/
theorem Memory.read_writeAll (bs : List Byte) (m : Memory) (a a' : Nat) :
    Memory.read (Memory.writeAll m a bs) a' =
      if a ≤ a' then bs.getD (a' - a) (Memory.read m a') else Memory.read m a' := by
  induction bs generalizing m a with
  | nil => simp [Memory.writeAll]
  | cons b bs ih =>
    simp only [Memory.writeAll, ih, Memory.read_write]
    by_cases h : a' = a
    · subst h; simp
    · by_cases h1 : a ≤ a'
      · obtain ⟨k, rfl⟩ : ∃ k, a' = a + (k + 1) := ⟨a' - a - 1, by omega⟩
        have h2 : a + (k + 1) - (a + 1) = k := by omega
        have h3 : a + (k + 1) - a = k + 1 := by omega
        have h4 : a + 1 ≤ a + (k + 1) := by omega
        simp [h2, h3, h4]
      · have h2 : ¬ a + 1 ≤ a' := by omega
        simp [h, h1, h2]

/-- Reset's memory is canonical. -/
theorem reset_mem_wf : Memory.wf State.reset.mem := ⟨List.Pairwise.nil, fun c hc => by cases hc⟩

/-- A byte read after a byte store, addresses reduced modulo 4096 (R40). -/
theorem memRead_memWrite (s : State) (a a' : Nat) (b : Byte) :
    memRead (memWrite s a b) a' = if a' % 4096 = a % 4096 then b else memRead s a' :=
  Memory.read_write s.mem (a % 4096) (a' % 4096) b

/-- A store keeps the canonical form, at whatever address. -/
theorem memWrite_wf (s : State) (a : Nat) (b : Byte) (h : Memory.wf s.mem) : Memory.wf (memWrite s a b).mem :=
  Memory.write_wf s.mem (a % Config.memSize) b h (Nat.mod_lt _ (by decide))

end Sys2Proof.Machine
end

