-- ==== Sys2Proof/Laws/State.lean ====
section
/-! SUPPORT. What each update does to each field: one lemma per field per update. -/

namespace Sys2Proof.Machine

/-! ## setV -/

@[simp] theorem setV_mem (s : State) (x : Nibble) (b : Byte) : (setV s x b).mem = s.mem := rfl
@[simp] theorem setV_i (s : State) (x : Nibble) (b : Byte) : (setV s x b).i = s.i := rfl
@[simp] theorem setV_pc (s : State) (x : Nibble) (b : Byte) : (setV s x b).pc = s.pc := rfl
@[simp] theorem setV_sp (s : State) (x : Nibble) (b : Byte) : (setV s x b).sp = s.sp := rfl
@[simp] theorem setV_stack (s : State) (x : Nibble) (b : Byte) : (setV s x b).stack = s.stack := rfl
@[simp] theorem setV_display (s : State) (x : Nibble) (b : Byte) : (setV s x b).display = s.display := rfl
@[simp] theorem setV_dt (s : State) (x : Nibble) (b : Byte) : (setV s x b).dt = s.dt := rfl
@[simp] theorem setV_st (s : State) (x : Nibble) (b : Byte) : (setV s x b).st = s.st := rfl
@[simp] theorem setV_k (s : State) (x : Nibble) (b : Byte) : (setV s x b).k = s.k := rfl
@[simp] theorem setV_kp (s : State) (x : Nibble) (b : Byte) : (setV s x b).kp = s.kp := rfl
@[simp] theorem setV_mode (s : State) (x : Nibble) (b : Byte) : (setV s x b).mode = s.mode := rfl
@[simp] theorem setV_rng (s : State) (x : Nibble) (b : Byte) : (setV s x b).rng = s.rng := rfl

/-! ## setI -/

@[simp] theorem setI_mem (s : State) (a : Half) : (setI s a).mem = s.mem := rfl
@[simp] theorem setI_v (s : State) (a : Half) : (setI s a).v = s.v := rfl
@[simp] theorem setI_i (s : State) (a : Half) : (setI s a).i = a := rfl
@[simp] theorem setI_pc (s : State) (a : Half) : (setI s a).pc = s.pc := rfl
@[simp] theorem setI_sp (s : State) (a : Half) : (setI s a).sp = s.sp := rfl
@[simp] theorem setI_stack (s : State) (a : Half) : (setI s a).stack = s.stack := rfl
@[simp] theorem setI_display (s : State) (a : Half) : (setI s a).display = s.display := rfl
@[simp] theorem setI_dt (s : State) (a : Half) : (setI s a).dt = s.dt := rfl
@[simp] theorem setI_st (s : State) (a : Half) : (setI s a).st = s.st := rfl
@[simp] theorem setI_k (s : State) (a : Half) : (setI s a).k = s.k := rfl
@[simp] theorem setI_kp (s : State) (a : Half) : (setI s a).kp = s.kp := rfl
@[simp] theorem setI_mode (s : State) (a : Half) : (setI s a).mode = s.mode := rfl
@[simp] theorem setI_rng (s : State) (a : Half) : (setI s a).rng = s.rng := rfl

/-! ## setPc -/

@[simp] theorem setPc_mem (s : State) (a : Half) : (setPc s a).mem = s.mem := rfl
@[simp] theorem setPc_v (s : State) (a : Half) : (setPc s a).v = s.v := rfl
@[simp] theorem setPc_i (s : State) (a : Half) : (setPc s a).i = s.i := rfl
@[simp] theorem setPc_pc (s : State) (a : Half) : (setPc s a).pc = a := rfl
@[simp] theorem setPc_sp (s : State) (a : Half) : (setPc s a).sp = s.sp := rfl
@[simp] theorem setPc_stack (s : State) (a : Half) : (setPc s a).stack = s.stack := rfl
@[simp] theorem setPc_display (s : State) (a : Half) : (setPc s a).display = s.display := rfl
@[simp] theorem setPc_dt (s : State) (a : Half) : (setPc s a).dt = s.dt := rfl
@[simp] theorem setPc_st (s : State) (a : Half) : (setPc s a).st = s.st := rfl
@[simp] theorem setPc_k (s : State) (a : Half) : (setPc s a).k = s.k := rfl
@[simp] theorem setPc_kp (s : State) (a : Half) : (setPc s a).kp = s.kp := rfl
@[simp] theorem setPc_mode (s : State) (a : Half) : (setPc s a).mode = s.mode := rfl
@[simp] theorem setPc_rng (s : State) (a : Half) : (setPc s a).rng = s.rng := rfl

/-! ## advance -/

@[simp] theorem advance_mem (s : State) : (advance s).mem = s.mem := rfl
@[simp] theorem advance_v (s : State) : (advance s).v = s.v := rfl
@[simp] theorem advance_i (s : State) : (advance s).i = s.i := rfl
@[simp] theorem advance_pc (s : State) : (advance s).pc = s.pc + 2 := rfl
@[simp] theorem advance_sp (s : State) : (advance s).sp = s.sp := rfl
@[simp] theorem advance_stack (s : State) : (advance s).stack = s.stack := rfl
@[simp] theorem advance_display (s : State) : (advance s).display = s.display := rfl
@[simp] theorem advance_dt (s : State) : (advance s).dt = s.dt := rfl
@[simp] theorem advance_st (s : State) : (advance s).st = s.st := rfl
@[simp] theorem advance_k (s : State) : (advance s).k = s.k := rfl
@[simp] theorem advance_kp (s : State) : (advance s).kp = s.kp := rfl
@[simp] theorem advance_mode (s : State) : (advance s).mode = s.mode := rfl
@[simp] theorem advance_rng (s : State) : (advance s).rng = s.rng := rfl

/-! ## setFlag -/

@[simp] theorem setFlag_mem (s : State) (c : Bool) : (setFlag s c).mem = s.mem := rfl
@[simp] theorem setFlag_i (s : State) (c : Bool) : (setFlag s c).i = s.i := rfl
@[simp] theorem setFlag_pc (s : State) (c : Bool) : (setFlag s c).pc = s.pc := rfl
@[simp] theorem setFlag_sp (s : State) (c : Bool) : (setFlag s c).sp = s.sp := rfl
@[simp] theorem setFlag_stack (s : State) (c : Bool) : (setFlag s c).stack = s.stack := rfl
@[simp] theorem setFlag_display (s : State) (c : Bool) : (setFlag s c).display = s.display := rfl
@[simp] theorem setFlag_dt (s : State) (c : Bool) : (setFlag s c).dt = s.dt := rfl
@[simp] theorem setFlag_st (s : State) (c : Bool) : (setFlag s c).st = s.st := rfl
@[simp] theorem setFlag_k (s : State) (c : Bool) : (setFlag s c).k = s.k := rfl
@[simp] theorem setFlag_kp (s : State) (c : Bool) : (setFlag s c).kp = s.kp := rfl
@[simp] theorem setFlag_mode (s : State) (c : Bool) : (setFlag s c).mode = s.mode := rfl
@[simp] theorem setFlag_rng (s : State) (c : Bool) : (setFlag s c).rng = s.rng := rfl

/-! ## memWrite -/

@[simp] theorem memWrite_v (s : State) (a : Nat) (b : Byte) : (memWrite s a b).v = s.v := rfl
@[simp] theorem memWrite_i (s : State) (a : Nat) (b : Byte) : (memWrite s a b).i = s.i := rfl
@[simp] theorem memWrite_pc (s : State) (a : Nat) (b : Byte) : (memWrite s a b).pc = s.pc := rfl
@[simp] theorem memWrite_sp (s : State) (a : Nat) (b : Byte) : (memWrite s a b).sp = s.sp := rfl
@[simp] theorem memWrite_stack (s : State) (a : Nat) (b : Byte) : (memWrite s a b).stack = s.stack := rfl
@[simp] theorem memWrite_display (s : State) (a : Nat) (b : Byte) : (memWrite s a b).display = s.display := rfl
@[simp] theorem memWrite_dt (s : State) (a : Nat) (b : Byte) : (memWrite s a b).dt = s.dt := rfl
@[simp] theorem memWrite_st (s : State) (a : Nat) (b : Byte) : (memWrite s a b).st = s.st := rfl
@[simp] theorem memWrite_k (s : State) (a : Nat) (b : Byte) : (memWrite s a b).k = s.k := rfl
@[simp] theorem memWrite_kp (s : State) (a : Nat) (b : Byte) : (memWrite s a b).kp = s.kp := rfl
@[simp] theorem memWrite_mode (s : State) (a : Nat) (b : Byte) : (memWrite s a b).mode = s.mode := rfl
@[simp] theorem memWrite_rng (s : State) (a : Nat) (b : Byte) : (memWrite s a b).rng = s.rng := rfl

/-! ## drawn -/

@[simp] theorem drawn_mem (s : State) : (drawn s).mem = s.mem := rfl
@[simp] theorem drawn_v (s : State) : (drawn s).v = s.v := rfl
@[simp] theorem drawn_i (s : State) : (drawn s).i = s.i := rfl
@[simp] theorem drawn_pc (s : State) : (drawn s).pc = s.pc := rfl
@[simp] theorem drawn_sp (s : State) : (drawn s).sp = s.sp := rfl
@[simp] theorem drawn_stack (s : State) : (drawn s).stack = s.stack := rfl
@[simp] theorem drawn_display (s : State) : (drawn s).display = s.display := rfl
@[simp] theorem drawn_dt (s : State) : (drawn s).dt = s.dt := rfl
@[simp] theorem drawn_st (s : State) : (drawn s).st = s.st := rfl
@[simp] theorem drawn_k (s : State) : (drawn s).k = s.k := rfl
@[simp] theorem drawn_kp (s : State) : (drawn s).kp = s.kp := rfl
@[simp] theorem drawn_mode (s : State) : (drawn s).mode = s.mode := rfl
@[simp] theorem drawn_rng (s : State) : (drawn s).rng = s.rng + 1 := rfl

/-! ## tick -/

@[simp] theorem tick_mem (s : State) : (tick s).mem = s.mem := rfl
@[simp] theorem tick_v (s : State) : (tick s).v = s.v := rfl
@[simp] theorem tick_i (s : State) : (tick s).i = s.i := rfl
@[simp] theorem tick_pc (s : State) : (tick s).pc = s.pc := rfl
@[simp] theorem tick_sp (s : State) : (tick s).sp = s.sp := rfl
@[simp] theorem tick_stack (s : State) : (tick s).stack = s.stack := rfl
@[simp] theorem tick_display (s : State) : (tick s).display = s.display := rfl
@[simp] theorem tick_dt (s : State) : (tick s).dt = countDown s.dt := rfl
@[simp] theorem tick_st (s : State) : (tick s).st = countDown s.st := rfl
@[simp] theorem tick_k (s : State) : (tick s).k = s.k := rfl
@[simp] theorem tick_kp (s : State) : (tick s).kp = s.kp := rfl
@[simp] theorem tick_mode (s : State) : (tick s).mode = s.mode := rfl
@[simp] theorem tick_rng (s : State) : (tick s).rng = s.rng := rfl

/-! ## setKey -/

@[simp] theorem setKey_mem (k : Nibble) (b : Bool) (s : State) : (setKey k b s).mem = s.mem := rfl
@[simp] theorem setKey_v (k : Nibble) (b : Bool) (s : State) : (setKey k b s).v = s.v := rfl
@[simp] theorem setKey_i (k : Nibble) (b : Bool) (s : State) : (setKey k b s).i = s.i := rfl
@[simp] theorem setKey_pc (k : Nibble) (b : Bool) (s : State) : (setKey k b s).pc = s.pc := rfl
@[simp] theorem setKey_sp (k : Nibble) (b : Bool) (s : State) : (setKey k b s).sp = s.sp := rfl
@[simp] theorem setKey_stack (k : Nibble) (b : Bool) (s : State) : (setKey k b s).stack = s.stack := rfl
@[simp] theorem setKey_display (k : Nibble) (b : Bool) (s : State) : (setKey k b s).display = s.display := rfl
@[simp] theorem setKey_dt (k : Nibble) (b : Bool) (s : State) : (setKey k b s).dt = s.dt := rfl
@[simp] theorem setKey_st (k : Nibble) (b : Bool) (s : State) : (setKey k b s).st = s.st := rfl
@[simp] theorem setKey_kp (k : Nibble) (b : Bool) (s : State) : (setKey k b s).kp = s.kp := rfl
@[simp] theorem setKey_mode (k : Nibble) (b : Bool) (s : State) : (setKey k b s).mode = s.mode := rfl
@[simp] theorem setKey_rng (k : Nibble) (b : Bool) (s : State) : (setKey k b s).rng = s.rng := rfl

/-! ## Reads of an updated state -/

@[simp] theorem getV_setI (s : State) (a : Half) (r : Nibble) : getV (setI s a) r = getV s r := rfl
@[simp] theorem getV_setPc (s : State) (a : Half) (r : Nibble) : getV (setPc s a) r = getV s r := rfl
@[simp] theorem getV_advance (s : State) (r : Nibble) : getV (advance s) r = getV s r := rfl
@[simp] theorem getV_memWrite (s : State) (a : Nat) (b : Byte) (r : Nibble) : getV (memWrite s a b) r = getV s r := rfl
@[simp] theorem getV_drawn (s : State) (r : Nibble) : getV (drawn s) r = getV s r := rfl
@[simp] theorem memRead_setV (s : State) (x : Nibble) (b : Byte) (a : Nat) : memRead (setV s x b) a = memRead s a := rfl
@[simp] theorem memRead_setI (s : State) (e : Half) (a : Nat) : memRead (setI s e) a = memRead s a := rfl
@[simp] theorem memRead_setPc (s : State) (e : Half) (a : Nat) : memRead (setPc s e) a = memRead s a := rfl
@[simp] theorem memRead_advance (s : State) (a : Nat) : memRead (advance s) a = memRead s a := rfl
@[simp] theorem memRead_setFlag (s : State) (c : Bool) (a : Nat) : memRead (setFlag s c) a = memRead s a := rfl
@[simp] theorem memRead_drawn (s : State) (a : Nat) : memRead (drawn s) a = memRead s a := rfl

/-- A register read after a register write. -/
theorem getV_setV (s : State) (x r : Nibble) (b : Byte) : getV (setV s x b) r = if r = x then b else getV s r := by
  unfold getV setV
  rw [Vector.getElem_set]
  by_cases h : r = x
  · simp [h]
  · have : ¬ x.toNat = r.toNat := fun e => h (BitVec.eq_of_toNat_eq e.symm)
    simp [h, this]

/-- A register read after a flag write. -/
theorem getV_setFlag (s : State) (c : Bool) (r : Nibble) :
    getV (setFlag s c) r = if r = vf then flagByte c else getV s r := getV_setV s vf r (flagByte c)

/-- PC after a skip instruction (R98). -/
theorem skipIf_pc (c : Bool) (s : State) : (skipIf c s).pc = if c then s.pc + 4 else s.pc + 2 := by
  cases c <;> rfl

/-- A skip changes PC only. -/
theorem skipIf_eq (c : Bool) (s : State) : skipIf c s = setPc s (if c then s.pc + 4 else s.pc + 2) := by
  cases c <;> rfl

end Sys2Proof.Machine
end

