-- ==== Sys2Proof/Laws/Ops.lean ====
section
/-! SUPPORT. One lemma per shared operation that says everything it can do: stack, runs of bytes, keys, fetch. -/

namespace Sys2Proof.Machine

/-! ## Stack (R90, R92) -/

/-- A push answers exactly when the stack is not full: the new entry, and one entry more. -/
theorem push?_spec (s : State) (a : Half) (h : s.sp.val < 16) :
    ∃ (n : Fin 17) (st : Vector Half 16), push? s a = some { s with stack := st, sp := n } ∧
      n.val = s.sp.val + 1 ∧ ∀ j (hj : j < 16), st[j] = if j = s.sp.val then a else s.stack[j] := by
  refine ⟨_, _, dif_pos h, rfl, fun j hj => ?_⟩
  simp only [Vector.getElem_set, eq_comm]

theorem push?_full (s : State) (a : Half) (h : s.sp.val = 16) : push? s a = none := dif_neg (by omega)

/-- A pop answers exactly when the stack is not empty: the newest entry, and one entry less. -/
theorem pop?_spec (s : State) (h : s.sp.val ≠ 0) :
    ∃ n : Fin 17, pop? s = some (s.stack[s.sp.val - 1]'(by omega), { s with sp := n }) ∧
      n.val = s.sp.val - 1 := ⟨_, dif_neg h, rfl⟩

theorem pop?_empty (s : State) (h : s.sp.val = 0) : pop? s = none := dif_pos h

/-! ## Runs of bytes (R42, R126) -/

theorem effAddr_mod (s : State) (j : Nat) : effAddr s j % 4096 = (s.i.toNat + j) % 4096 := Nat.mod_mod _ _

theorem memRead_mod (s : State) (a : Nat) : memRead s (a % 4096) = memRead s a := by
  unfold memRead; rw [show Config.memSize = 4096 from rfl, Nat.mod_mod]

@[simp] theorem readRun_length (s : State) (n : Nat) : (readRun s n).length = n := by simp [readRun]

/-- Byte `j` of a run read from memory is `M[(I + j) mod 4096]`. -/
theorem readRun_getElem (s : State) (n j : Nat) (h : j < (readRun s n).length) :
    (readRun s n)[j] = memRead s (s.i.toNat + j) := by
  simp only [readRun, List.getElem_map, List.getElem_range]
  exact memRead_mod s _

@[simp] theorem regRun_length (s : State) (x : Nibble) : (regRun s x).length = x.toNat + 1 := by simp [regRun]

/-- Byte `j` of a run of registers is `V[j]`. -/
theorem regRun_getElem (s : State) (x : Nibble) (j : Nat) (h : j < (regRun s x).length) :
    (regRun s x)[j] = getV s (BitVec.ofNat 4 j) := by simp [regRun]

/-- A run of stores at effective addresses of `s`, from byte `n` of the run on. -/
theorem storeRun_from (s : State) (bs : List Byte) (t : State) (n a : Nat) (hn : n + bs.length ≤ 4096) :
    memRead ((bs.zipIdx n).foldl (fun t bj => memWrite t (effAddr s bj.2) bj.1) t) a =
      if n ≤ (a + (4096 - s.i.toNat % 4096)) % 4096 then
        bs.getD ((a + (4096 - s.i.toNat % 4096)) % 4096 - n) (memRead t a)
      else memRead t a := by
  induction bs generalizing t n with
  | nil => simp
  | cons b bs ih =>
    simp only [List.length_cons] at hn
    simp only [List.zipIdx_cons, List.foldl_cons]
    rw [ih _ _ (by omega), memRead_memWrite, effAddr_mod]
    generalize hj : (a + (4096 - s.i.toNat % 4096)) % 4096 = j
    have key : a % 4096 = (s.i.toNat + n) % 4096 ↔ j = n := by omega
    rw [if_congr key rfl rfl]
    by_cases h : j = n
    · subst h; simp
    · by_cases h1 : n ≤ j
      · obtain ⟨k, rfl⟩ : ∃ k, j = n + (k + 1) := ⟨j - n - 1, by omega⟩
        have h2 : n + (k + 1) - (n + 1) = k := by omega
        have h3 : n + (k + 1) - n = k + 1 := by omega
        have h4 : n + 1 ≤ n + (k + 1) := by omega
        simp [h2, h3, h4]
      · have h2 : ¬ n + 1 ≤ j := by omega
        simp [h, h1, h2]

/-- Memory after a run of stores: byte `j` of the run at `(I + j) mod 4096`, every other byte as before. -/
theorem memRead_storeRun (s : State) (bs : List Byte) (a : Nat) (hn : bs.length ≤ 4096) :
    memRead (storeRun s bs) a = bs.getD ((a + (4096 - s.i.toNat % 4096)) % 4096) (memRead s a) := by
  have := storeRun_from s bs s 0 a (by omega)
  simpa [storeRun] using this

/-- A run of stores changes memory only. -/
theorem storeRun_eq (s : State) (bs : List Byte) : storeRun s bs = { s with mem := (storeRun s bs).mem } := by
  suffices h : ∀ (l : List (Byte × Nat)) (t : State),
      l.foldl (fun t bj => memWrite t (effAddr s bj.2) bj.1) t =
        { t with mem := (l.foldl (fun t bj => memWrite t (effAddr s bj.2) bj.1) t).mem } from h _ s
  intro l
  induction l with
  | nil => intro t; rfl
  | cons c l ih => intro t; simp only [List.foldl_cons]; rw [ih]; rfl

/-- A run of stores keeps the canonical form. -/
theorem storeRun_wf (s : State) (bs : List Byte) (h : Memory.wf s.mem) : Memory.wf (storeRun s bs).mem := by
  suffices h' : ∀ (l : List (Byte × Nat)) (t : State), Memory.wf t.mem →
      Memory.wf (l.foldl (fun t bj => memWrite t (effAddr s bj.2) bj.1) t).mem from h' _ s h
  intro l
  induction l with
  | nil => intro t ht; exact ht
  | cons c l ih => intro t ht; exact ih _ (memWrite_wf t _ _ ht)

theorem loadRun_from (bs : List Byte) (t : State) (n : Nat) (r : Nibble) (hn : n + bs.length ≤ 16) :
    getV ((bs.zipIdx n).foldl (fun t bj => setV t (BitVec.ofNat 4 bj.2) bj.1) t) r =
      if n ≤ r.toNat then bs.getD (r.toNat - n) (getV t r) else getV t r := by
  induction bs generalizing t n with
  | nil => simp
  | cons b bs ih =>
    simp only [List.length_cons] at hn
    simp only [List.zipIdx_cons, List.foldl_cons]
    rw [ih _ _ (by omega), getV_setV]
    have key : r = BitVec.ofNat 4 n ↔ r.toNat = n := by
      constructor
      · rintro rfl; simp only [BitVec.toNat_ofNat]; omega
      · rintro rfl; simp
    rw [if_congr key rfl rfl]
    generalize r.toNat = j
    by_cases h : j = n
    · subst h; simp
    · by_cases h1 : n ≤ j
      · obtain ⟨k, rfl⟩ : ∃ k, j = n + (k + 1) := ⟨j - n - 1, by omega⟩
        have h2 : n + (k + 1) - (n + 1) = k := by omega
        have h3 : n + (k + 1) - n = k + 1 := by omega
        have h4 : n + 1 ≤ n + (k + 1) := by omega
        simp [h2, h3, h4]
      · have h2 : ¬ n + 1 ≤ j := by omega
        simp [h, h1, h2]

/-- The registers after a run of loads: byte `j` of the run in `V[j]`, every other register as before. -/
theorem getV_loadRun (s : State) (bs : List Byte) (r : Nibble) (hn : bs.length ≤ 16) :
    getV (loadRun s bs) r = bs.getD r.toNat (getV s r) := by
  have := loadRun_from bs s 0 r (by omega)
  simpa [loadRun] using this

/-- A run of loads changes the registers only. -/
theorem loadRun_eq (s : State) (bs : List Byte) : loadRun s bs = { s with v := (loadRun s bs).v } := by
  suffices h : ∀ (l : List (Byte × Nat)) (t : State),
      l.foldl (fun t bj => setV t (BitVec.ofNat 4 bj.2) bj.1) t =
        { t with v := (l.foldl (fun t bj => setV t (BitVec.ofNat 4 bj.2) bj.1) t).v } from h _ s
  intro l
  induction l with
  | nil => intro t; rfl
  | cons c l ih => intro t; simp only [List.foldl_cons]; rw [ih]; rfl

/-! ## Keys (R146, R163) -/

/-- A key read after a SetKey. -/
theorem getKey_setKey (s : State) (k j : Nibble) (b : Bool) :
    getKey (setKey k b s).k j = if j = k then b else getKey s.k j := by
  unfold getKey setKey
  rw [Vector.getElem_set]
  by_cases h : j = k
  · simp [h]
  · have : ¬ k.toNat = j.toNat := fun e => h (BitVec.eq_of_toNat_eq e.symm)
    simp [h, this]

theorem allKeys_eq : allKeys = [0, 1, 2, 3, 4, 5, 6, 7, 8, 9, 10, 11, 12, 13, 14, 15] := by decide

theorem mem_allKeys (k : Nibble) : k ∈ allKeys := by revert k; decide

theorem allKeys_sorted : allKeys.Pairwise (fun j k => j.toNat < k.toNat) := by decide

/-- No key is reported exactly when none is pressed now that was not pressed at the previous check. -/
theorem newKey?_eq_none (s : State) :
    newKey? s = none ↔ ∀ k, ¬ (getKey s.k k = true ∧ getKey s.kp k = false) := by
  unfold newKey?
  rw [List.find?_eq_none]
  constructor
  · intro h k; simpa using h k (mem_allKeys k)
  · intro h k _; simpa using h k

/-- The key reported is a newly pressed one, and no lower key is. -/
theorem newKey?_eq_some (s : State) (k : Nibble) (h : newKey? s = some k) :
    getKey s.k k = true ∧ getKey s.kp k = false ∧
      ∀ j, j.toNat < k.toNat → ¬ (getKey s.k j = true ∧ getKey s.kp j = false) := by
  unfold newKey? at h
  rw [List.find?_eq_some_iff_append] at h
  obtain ⟨hk, as, bs, hl, hn⟩ := h
  simp only [Bool.and_eq_true, Bool.not_eq_true'] at hk
  refine ⟨hk.1, hk.2, fun j hj => ?_⟩
  have hs := allKeys_sorted
  rw [hl, List.pairwise_append, List.pairwise_cons] at hs
  have hm := mem_allKeys j
  rw [hl] at hm
  rcases List.mem_append.mp hm with hm | hm
  · rintro ⟨h1, h2⟩; simpa [h1, h2] using hn j hm
  · rcases List.mem_cons.mp hm with rfl | hm
    · omega
    · have := hs.2.1.1 j hm; omega

end Sys2Proof.Machine
end

