-- ==== Sys2Proof/Laws/PerInstr.lean ====
section
/-! SUPPORT. Statements made of every instruction, one lemma per constructor. -/

namespace Sys2Proof.Laws

/-- The encoder gives an instruction a word of its own row of the opcode table (R64), and the instruction is well formed. -/
def Encoding.Statement (i : Instr) : Prop :=
  i.WellFormed = true ∧ ∃ row ∈ opcodeTable, row.mnemonic = i.mnemonic ∧ row.matchesWord (encode i) = true

/-- A constructor's statement, from its row. -/
theorem Encoding.of_row (i : Instr) (row : OpcodeRow) (hw : i.WellFormed = true) (h : row ∈ opcodeTable)
    (hm : row.mnemonic = i.mnemonic) (hp : encode i &&& row.mask = row.pattern) : Encoding.Statement i :=
  ⟨hw, row, h, hm, by simpa [OpcodeRow.matchesWord] using hp⟩

theorem Encoding.cls : Encoding.Statement .cls :=
  Encoding.of_row _ ⟨"CLS", 0xFFFF, 0x00E0⟩ rfl (by decide) rfl (by decide)

theorem Encoding.ret : Encoding.Statement .ret :=
  Encoding.of_row _ ⟨"RET", 0xFFFF, 0x00EE⟩ rfl (by decide) rfl (by decide)

theorem Encoding.jpAddr (nnn : Addr) : Encoding.Statement (.jpAddr nnn) :=
  Encoding.of_row _ ⟨"JP_addr", 0xF000, 0x1000⟩ rfl (by decide) rfl ((and_classMask _).trans (by rw [encode, fieldClass_nnn]; decide))

theorem Encoding.callAddr (nnn : Addr) : Encoding.Statement (.callAddr nnn) :=
  Encoding.of_row _ ⟨"CALL_addr", 0xF000, 0x2000⟩ rfl (by decide) rfl ((and_classMask _).trans (by rw [encode, fieldClass_nnn]; decide))

theorem Encoding.seVxByte (x : Nibble) (nn : Byte) : Encoding.Statement (.seVxByte x nn) :=
  Encoding.of_row _ ⟨"SE_Vx_byte", 0xF000, 0x3000⟩ rfl (by decide) rfl ((and_classMask _).trans (by rw [encode, fieldClass_xnn]; decide))

theorem Encoding.sneVxByte (x : Nibble) (nn : Byte) : Encoding.Statement (.sneVxByte x nn) :=
  Encoding.of_row _ ⟨"SNE_Vx_byte", 0xF000, 0x4000⟩ rfl (by decide) rfl ((and_classMask _).trans (by rw [encode, fieldClass_xnn]; decide))

theorem Encoding.seVxVy (x y : Nibble) : Encoding.Statement (.seVxVy x y) :=
  Encoding.of_row _ ⟨"SE_Vx_Vy", 0xF00F, 0x5000⟩ rfl (by decide) rfl ((and_classNMask _).trans (by rw [encode, fieldClass_xyn, fieldN_xyn]; decide))

theorem Encoding.sneVxVy (x y : Nibble) : Encoding.Statement (.sneVxVy x y) :=
  Encoding.of_row _ ⟨"SNE_Vx_Vy", 0xF00F, 0x9000⟩ rfl (by decide) rfl ((and_classNMask _).trans (by rw [encode, fieldClass_xyn, fieldN_xyn]; decide))

theorem Encoding.ldVxByte (x : Nibble) (nn : Byte) : Encoding.Statement (.ldVxByte x nn) :=
  Encoding.of_row _ ⟨"LD_Vx_byte", 0xF000, 0x6000⟩ rfl (by decide) rfl ((and_classMask _).trans (by rw [encode, fieldClass_xnn]; decide))

theorem Encoding.addVxByte (x : Nibble) (nn : Byte) : Encoding.Statement (.addVxByte x nn) :=
  Encoding.of_row _ ⟨"ADD_Vx_byte", 0xF000, 0x7000⟩ rfl (by decide) rfl ((and_classMask _).trans (by rw [encode, fieldClass_xnn]; decide))

theorem Encoding.ldVxVy (x y : Nibble) : Encoding.Statement (.ldVxVy x y) :=
  Encoding.of_row _ ⟨"LD_Vx_Vy", 0xF00F, 0x8000⟩ rfl (by decide) rfl ((and_classNMask _).trans (by rw [encode, fieldClass_xyn, fieldN_xyn]; decide))

theorem Encoding.orVxVy (x y : Nibble) : Encoding.Statement (.orVxVy x y) :=
  Encoding.of_row _ ⟨"OR_Vx_Vy", 0xF00F, 0x8001⟩ rfl (by decide) rfl ((and_classNMask _).trans (by rw [encode, fieldClass_xyn, fieldN_xyn]; decide))

theorem Encoding.andVxVy (x y : Nibble) : Encoding.Statement (.andVxVy x y) :=
  Encoding.of_row _ ⟨"AND_Vx_Vy", 0xF00F, 0x8002⟩ rfl (by decide) rfl ((and_classNMask _).trans (by rw [encode, fieldClass_xyn, fieldN_xyn]; decide))

theorem Encoding.xorVxVy (x y : Nibble) : Encoding.Statement (.xorVxVy x y) :=
  Encoding.of_row _ ⟨"XOR_Vx_Vy", 0xF00F, 0x8003⟩ rfl (by decide) rfl ((and_classNMask _).trans (by rw [encode, fieldClass_xyn, fieldN_xyn]; decide))

theorem Encoding.addVxVy (x y : Nibble) : Encoding.Statement (.addVxVy x y) :=
  Encoding.of_row _ ⟨"ADD_Vx_Vy", 0xF00F, 0x8004⟩ rfl (by decide) rfl ((and_classNMask _).trans (by rw [encode, fieldClass_xyn, fieldN_xyn]; decide))

theorem Encoding.subVxVy (x y : Nibble) : Encoding.Statement (.subVxVy x y) :=
  Encoding.of_row _ ⟨"SUB_Vx_Vy", 0xF00F, 0x8005⟩ rfl (by decide) rfl ((and_classNMask _).trans (by rw [encode, fieldClass_xyn, fieldN_xyn]; decide))

theorem Encoding.subnVxVy (x y : Nibble) : Encoding.Statement (.subnVxVy x y) :=
  Encoding.of_row _ ⟨"SUBN_Vx_Vy", 0xF00F, 0x8007⟩ rfl (by decide) rfl ((and_classNMask _).trans (by rw [encode, fieldClass_xyn, fieldN_xyn]; decide))

theorem Encoding.shrVx (x y : Nibble) : Encoding.Statement (.shrVx x y) :=
  Encoding.of_row _ ⟨"SHR_Vx__Vy", 0xF00F, 0x8006⟩ rfl (by decide) rfl ((and_classNMask _).trans (by rw [encode, fieldClass_xyn, fieldN_xyn]; decide))

theorem Encoding.shlVx (x y : Nibble) : Encoding.Statement (.shlVx x y) :=
  Encoding.of_row _ ⟨"SHL_Vx__Vy", 0xF00F, 0x800E⟩ rfl (by decide) rfl ((and_classNMask _).trans (by rw [encode, fieldClass_xyn, fieldN_xyn]; decide))

theorem Encoding.ldIAddr (nnn : Addr) : Encoding.Statement (.ldIAddr nnn) :=
  Encoding.of_row _ ⟨"LD_I_addr", 0xF000, 0xA000⟩ rfl (by decide) rfl ((and_classMask _).trans (by rw [encode, fieldClass_nnn]; decide))

theorem Encoding.jpV0Addr (nnn : Addr) : Encoding.Statement (.jpV0Addr nnn) :=
  Encoding.of_row _ ⟨"JP_V0_addr", 0xF000, 0xB000⟩ rfl (by decide) rfl ((and_classMask _).trans (by rw [encode, fieldClass_nnn]; decide))

theorem Encoding.rndVxByte (x : Nibble) (nn : Byte) : Encoding.Statement (.rndVxByte x nn) :=
  Encoding.of_row _ ⟨"RND_Vx_byte", 0xF000, 0xC000⟩ rfl (by decide) rfl ((and_classMask _).trans (by rw [encode, fieldClass_xnn]; decide))

theorem Encoding.drwVxVyN (x y n : Nibble) : Encoding.Statement (.drwVxVyN x y n) :=
  Encoding.of_row _ ⟨"DRW_Vx_Vy_N", 0xF000, 0xD000⟩ rfl (by decide) rfl ((and_classMask _).trans (by rw [encode, fieldClass_xyn]; decide))

theorem Encoding.skpVx (x : Nibble) : Encoding.Statement (.skpVx x) :=
  Encoding.of_row _ ⟨"SKP_Vx", 0xF0FF, 0xE09E⟩ rfl (by decide) rfl ((and_classNNMask _).trans (by rw [encode, fieldClass_xnn, fieldNN_xnn]; decide))

theorem Encoding.sknpVx (x : Nibble) : Encoding.Statement (.sknpVx x) :=
  Encoding.of_row _ ⟨"SKNP_Vx", 0xF0FF, 0xE0A1⟩ rfl (by decide) rfl ((and_classNNMask _).trans (by rw [encode, fieldClass_xnn, fieldNN_xnn]; decide))

theorem Encoding.ldVxDT (x : Nibble) : Encoding.Statement (.ldVxDT x) :=
  Encoding.of_row _ ⟨"LD_Vx_DT", 0xF0FF, 0xF007⟩ rfl (by decide) rfl ((and_classNNMask _).trans (by rw [encode, fieldClass_xnn, fieldNN_xnn]; decide))

theorem Encoding.ldDTVx (x : Nibble) : Encoding.Statement (.ldDTVx x) :=
  Encoding.of_row _ ⟨"LD_DT_Vx", 0xF0FF, 0xF015⟩ rfl (by decide) rfl ((and_classNNMask _).trans (by rw [encode, fieldClass_xnn, fieldNN_xnn]; decide))

theorem Encoding.ldSTVx (x : Nibble) : Encoding.Statement (.ldSTVx x) :=
  Encoding.of_row _ ⟨"LD_ST_Vx", 0xF0FF, 0xF018⟩ rfl (by decide) rfl ((and_classNNMask _).trans (by rw [encode, fieldClass_xnn, fieldNN_xnn]; decide))

theorem Encoding.addIVx (x : Nibble) : Encoding.Statement (.addIVx x) :=
  Encoding.of_row _ ⟨"ADD_I_Vx", 0xF0FF, 0xF01E⟩ rfl (by decide) rfl ((and_classNNMask _).trans (by rw [encode, fieldClass_xnn, fieldNN_xnn]; decide))

theorem Encoding.ldVxK (x : Nibble) : Encoding.Statement (.ldVxK x) :=
  Encoding.of_row _ ⟨"LD_Vx_K", 0xF0FF, 0xF00A⟩ rfl (by decide) rfl ((and_classNNMask _).trans (by rw [encode, fieldClass_xnn, fieldNN_xnn]; decide))

theorem Encoding.ldFVx (x : Nibble) : Encoding.Statement (.ldFVx x) :=
  Encoding.of_row _ ⟨"LD_F_Vx", 0xF0FF, 0xF029⟩ rfl (by decide) rfl ((and_classNNMask _).trans (by rw [encode, fieldClass_xnn, fieldNN_xnn]; decide))

theorem Encoding.ldBVx (x : Nibble) : Encoding.Statement (.ldBVx x) :=
  Encoding.of_row _ ⟨"LD_B_Vx", 0xF0FF, 0xF033⟩ rfl (by decide) rfl ((and_classNNMask _).trans (by rw [encode, fieldClass_xnn, fieldNN_xnn]; decide))

theorem Encoding.ldMemVx (x : Nibble) : Encoding.Statement (.ldMemVx x) :=
  Encoding.of_row _ ⟨"LD__I__Vx", 0xF0FF, 0xF055⟩ rfl (by decide) rfl ((and_classNNMask _).trans (by rw [encode, fieldClass_xnn, fieldNN_xnn]; decide))

theorem Encoding.ldVxMem (x : Nibble) : Encoding.Statement (.ldVxMem x) :=
  Encoding.of_row _ ⟨"LD_Vx__I", 0xF0FF, 0xF065⟩ rfl (by decide) rfl ((and_classNNMask _).trans (by rw [encode, fieldClass_xnn, fieldNN_xnn]; decide))

end Sys2Proof.Laws
end

