-- ==== Sys2Proof/Laws/Screen.lean ====
section
/-! SUPPORT. The display: what a blit does to every pixel, and when it records a collision (R131, R132). -/

namespace Sys2Proof.Machine

/-- A pixel read after a pixel write. -/
theorem getPixel_setPixel (d : Display) (r c r' c' : Nat) (b : Bool) :
    getPixel (setPixel d r c b) r' c' =
      if r' % 32 = r % 32 ∧ c' % 64 = c % 64 then b else getPixel d r' c' := by
  unfold getPixel setPixel
  simp only [Vector.getElem_set]
  by_cases h : r' % 32 = r % 32
  · by_cases h' : c' % 64 = c % 64
    · simp [h, h']
    · have : ¬ c % 64 = c' % 64 := fun e => h' e.symm
      simp [h, h', this]
  · have : ¬ r % 32 = r' % 32 := fun e => h e.symm
    simp [h, this]

theorem getPixel_mod (d : Display) (r c : Nat) : getPixel d (r % 32) (c % 64) = getPixel d r c := by
  unfold getPixel; simp only [Nat.mod_mod]

/-- Every pixel of the blank display is unset. -/
theorem getPixel_blank (r c : Nat) : getPixel blankDisplay r c = false := by simp [getPixel, blankDisplay]

/-- The column of a sprite drawn from column `c` on that lands on column `c'`. -/
def colOff (c c' : Nat) : Nat := (c' + (64 - c % 64)) % 64

/-- The row of a sprite drawn from row `r` on that lands on row `r'`. -/
def rowOff (r r' : Nat) : Nat := (r' + (32 - r % 32)) % 32

theorem colOff_iff (c c' k : Nat) (hk : k < 64) : c' % 64 = (c + k) % 64 ↔ colOff c c' = k := by
  unfold colOff; omega

theorem rowOff_iff (r r' j : Nat) (hj : j < 32) : r' % 32 = (r + j) % 32 ↔ rowOff r r' = j := by
  unfold rowOff; omega

theorem plot_fst (acc : Blit) (r c : Nat) (bit : Bool) :
    (plot acc r c bit).1 = setPixel acc.1 r c (getPixel acc.1 r c ^^ bit) := rfl

theorem plot_snd (acc : Blit) (r c : Nat) (bit : Bool) :
    (plot acc r c bit).2 = (acc.2 || (getPixel acc.1 r c && bit)) := rfl

/-- The first `m` bits of a sprite row XORed onto a display. -/
theorem plotBits_pixel (acc : Blit) (r c m r' c' : Nat) (b : Byte) (hm : m ≤ 8) :
    getPixel ((List.range m).foldl (fun acc k => plot acc r (c + k) (spriteBit b k)) acc).1 r' c' =
      (getPixel acc.1 r' c' ^^
        (decide (r' % 32 = r % 32) && decide (colOff c c' < m) && spriteBit b (colOff c c'))) := by
  induction m with
  | zero => simp
  | succ m ih =>
    simp only [List.range_succ, List.foldl_append, List.foldl_cons, List.foldl_nil]
    rw [plot_fst, getPixel_setPixel, if_congr (and_congr Iff.rfl (colOff_iff c c' m (by omega))) rfl rfl]
    by_cases hr : r' % 32 = r % 32 <;> by_cases hc : colOff c c' = m
    · have hp : ∀ d : Display, getPixel d r (c + m) = getPixel d r' c' := fun d => by
        rw [← getPixel_mod d r, ← getPixel_mod d r', hr, (colOff_iff c c' m (by omega)).mpr hc]
      rw [hp, ih (by omega)]
      simp [hr, hc]
    · rw [ih (by omega)]
      have : colOff c c' < m + 1 ↔ colOff c c' < m := by omega
      simp [hr, hc, this]
    · rw [ih (by omega)]; simp [hr]
    · rw [ih (by omega)]; simp [hr]

/-- The first `m` bits of a sprite row record a collision where one of them meets a set pixel. -/
theorem plotBits_collision (acc : Blit) (r c m : Nat) (b : Byte) (hm : m ≤ 8) :
    ((List.range m).foldl (fun acc k => plot acc r (c + k) (spriteBit b k)) acc).2 = true ↔
      acc.2 = true ∨ ∃ k < m, getPixel acc.1 r (c + k) = true ∧ spriteBit b k = true := by
  induction m with
  | zero => simp
  | succ m ih =>
    simp only [List.range_succ, List.foldl_append, List.foldl_cons, List.foldl_nil]
    rw [plot_snd]
    simp only [Bool.or_eq_true, Bool.and_eq_true]
    rw [ih (by omega), plotBits_pixel acc r c m r (c + m) b (by omega)]
    have : colOff c (c + m) = m := (colOff_iff c (c + m) m (by omega)).mp rfl
    simp only [this, Nat.lt_irrefl, decide_false, Bool.and_false, Bool.false_and, Bool.xor_false]
    constructor
    · rintro ((h | ⟨k, hk, h⟩) | h)
      · exact .inl h
      · exact .inr ⟨k, by omega, h⟩
      · exact .inr ⟨m, by omega, h⟩
    · rintro (h | ⟨k, hk, h⟩)
      · exact .inl (.inl h)
      · by_cases hkm : k = m
        · subst hkm; exact .inr h
        · exact .inl (.inr ⟨k, by omega, h⟩)

/-- The rows of a sprite from row `n` of it on. -/
theorem blit_from (rows : List Byte) (acc : Blit) (r c n : Nat) (hn : n + rows.length ≤ 32) :
    (∀ r' c', getPixel ((rows.zipIdx n).foldl (fun acc bj => plotRow acc (r + bj.2) c bj.1) acc).1 r' c' =
      (getPixel acc.1 r' c' ^^ (decide (n ≤ rowOff r r') && decide (colOff c c' < 8) &&
        spriteBit (rows.getD (rowOff r r' - n) 0) (colOff c c')))) ∧
    (((rows.zipIdx n).foldl (fun acc bj => plotRow acc (r + bj.2) c bj.1) acc).2 = true ↔
      acc.2 = true ∨ ∃ j < rows.length, ∃ k < 8,
        getPixel acc.1 (r + (n + j)) (c + k) = true ∧ spriteBit (rows.getD j 0) k = true) := by
  induction rows generalizing acc n with
  | nil => simp [spriteBit]
  | cons b rows ih =>
    simp only [List.length_cons] at hn
    simp only [List.zipIdx_cons, List.foldl_cons]
    obtain ⟨ih1, ih2⟩ := ih (plotRow acc (r + n) c b) (n + 1) (by omega)
    refine ⟨fun r' c' => ?_, ?_⟩
    · rw [ih1]
      unfold plotRow
      rw [plotBits_pixel acc (r + n) c 8 r' c' b (by omega)]
      simp only [rowOff_iff r r' n (by omega)]
      generalize rowOff r r' = j
      by_cases h : j = n
      · subst h; simp
      · by_cases h1 : n ≤ j
        · obtain ⟨k, rfl⟩ : ∃ k, j = n + (k + 1) := ⟨j - n - 1, by omega⟩
          have h2 : n + (k + 1) - (n + 1) = k := by omega
          have h3 : n + (k + 1) - n = k + 1 := by omega
          have h4 : n + 1 ≤ n + (k + 1) := by omega
          simp [h2, h3, h4]
        · have h2 : ¬ n + 1 ≤ j := by omega
          simp [h, h1, h2]
    · rw [ih2]
      unfold plotRow
      rw [plotBits_collision acc (r + n) c 8 b (by omega)]
      have hpix : ∀ j < rows.length, ∀ k, getPixel ((List.range 8).foldl
          (fun acc k => plot acc (r + n) (c + k) (spriteBit b k)) acc).1 (r + (n + 1 + j)) (c + k) =
          getPixel acc.1 (r + (n + (j + 1))) (c + k) := by
        intro j hj k
        rw [plotBits_pixel acc (r + n) c 8 _ _ b (by omega)]
        have : ¬ (r + (n + 1 + j)) % 32 = (r + n) % 32 := by omega
        simp only [this, decide_false, Bool.false_and, Bool.xor_false]
        congr 2; omega
      constructor
      · rintro ((h | ⟨k, hk, h⟩) | ⟨j, hj, k, hk, hp, h⟩)
        · exact .inl h
        · exact .inr ⟨0, by simp, k, hk, by simpa using h⟩
        · exact .inr ⟨j + 1, by simpa using hj, k, hk, (hpix j hj k) ▸ hp, by simpa using h⟩
      · rintro (h | ⟨j, hj, k, hk, hp, h⟩)
        · exact .inl (.inl h)
        · cases j with
          | zero => exact .inl (.inr ⟨k, hk, by simpa using hp, by simpa using h⟩)
          | succ j =>
            have hj' : j < rows.length := by simpa using hj
            exact .inr ⟨j, hj', k, hk, (hpix j hj' k).symm ▸ hp, by simpa using h⟩

/-- Whether a set bit of a sprite of these rows, drawn from row `r` and column `c` on, lands on pixel (`r'`, `c'`). -/
def Covers (r c : Nat) (rows : List Byte) (r' c' : Nat) : Prop :=
  ∃ j < rows.length, ∃ k < 8, r' % 32 = (r + j) % 32 ∧ c' % 64 = (c + k) % 64 ∧ spriteBit (rows.getD j 0) k = true

/-- A blit flips exactly the pixels a set bit of the sprite lands on. -/
theorem blit_pixel (d : Display) (r c : Nat) (rows : List Byte) (hn : rows.length ≤ 32) (r' c' : Nat) :
    getPixel (blit d r c rows).1 r' c' = true ↔ ¬ (getPixel d r' c' = true ↔ Covers r c rows r' c') := by
  unfold blit
  rw [(blit_from rows (d, false) r c 0 (by omega)).1]
  have hcov : Covers r c rows r' c' ↔ (colOff c c' < 8 ∧ spriteBit (rows.getD (rowOff r r') 0) (colOff c c') = true) := by
    constructor
    · rintro ⟨j, hj, k, hk, h1, h2, h3⟩
      rw [rowOff_iff r r' j (by omega)] at h1
      rw [colOff_iff c c' k (by omega)] at h2
      rw [h1, h2]; exact ⟨hk, h3⟩
    · rintro ⟨h1, h2⟩
      have hj : rowOff r r' < rows.length := by
        by_contra hj
        rw [List.getD_eq_default _ _ (by omega)] at h2
        simp [spriteBit] at h2
      exact ⟨_, hj, _, h1, (rowOff_iff r r' _ (by omega)).mpr rfl, (colOff_iff c c' _ (by omega)).mpr rfl, h2⟩
  rw [hcov]
  by_cases hk : colOff c c' < 8 <;> cases getPixel d r' c' <;> simp [hk]

/-- A blit records a collision exactly when a set bit of the sprite lands on a set pixel. -/
theorem blit_collision (d : Display) (r c : Nat) (rows : List Byte) (hn : rows.length ≤ 32) :
    (blit d r c rows).2 = true ↔ ∃ j < rows.length, ∃ k < 8,
      getPixel d (r + j) (c + k) = true ∧ spriteBit (rows.getD j 0) k = true := by
  unfold blit
  rw [(blit_from rows (d, false) r c 0 (by omega)).2]
  simp

end Sys2Proof.Machine
end

