-- ==== Sys2Proof/Laws/Step.lean ====
section
/-! SUPPORT. What a Step can do: one inversion lemma, and what the fetch gives. -/

namespace Sys2Proof.Machine

/-- The word the next Step fetches. -/
def fetchWord (s : State) : Half := joinBytes (memRead s s.pc.toNat) (memRead s (s.pc.toNat + 1))

/-- The fetch decodes one word and leaves no bytes. -/
theorem fetch_eq (s : State) :
    fetch s = match decodeWord (fetchWord s) with
      | some i => .ok (i, [])
      | none => .error (.illegal (fetchWord s)) := rfl

theorem fetch_ok_iff (s : State) (i : Instr) : fetch s = .ok (i, []) ↔ decodeWord (fetchWord s) = some i := by
  rw [fetch_eq]; cases decodeWord (fetchWord s) <;> simp

/-- The fetch depends on PC and memory alone. -/
theorem fetchWord_congr (s t : State) (hpc : t.pc = s.pc) (hm : ∀ a, memRead t a = memRead s a) :
    fetchWord t = fetchWord s := by
  unfold fetchWord; rw [hpc, hm, hm]

theorem step_awaiting (s : State) (w : Nibble) (h : s.mode = .awaitingKey w) : step s = awaitStep w s := by
  unfold step; rw [h]

theorem step_running (s : State) (h : s.mode = .running) :
    step s = match decodeWord (fetchWord s) with
      | some i => exec i s
      | none => .fault .illegalInstruction := by
  unfold step; rw [h, fetch_eq]
  cases decodeWord (fetchWord s) <;> rfl

/-- A waiting Step ends Ok: either only the snapshot changes, or the lowest newly pressed key ends the wait (R146). -/
theorem awaitStep_cases (w : Nibble) (s : State) :
    (newKey? s = none ∧ awaitStep w s = .next { s with kp := s.k }) ∨
    (∃ k, newKey? s = some k ∧
      awaitStep w s = .next (advance { setV s w (zextKey k) with mode := .running, kp := s.k })) := by
  unfold awaitStep
  cases newKey? s with
  | none => exact .inl ⟨rfl, rfl⟩
  | some k => exact .inr ⟨k, rfl, rfl⟩

/-- A Step that ends Ok was a waiting Step, or ran the instruction fetched. -/
theorem step_next_cases (s t : State) (h : step s = .next t) :
    (∃ w, s.mode = .awaitingKey w ∧ awaitStep w s = .next t) ∨
    (s.mode = .running ∧ ∃ i, decodeWord (fetchWord s) = some i ∧ exec i s = .next t) := by
  cases hm : s.mode with
  | awaitingKey w => exact .inl ⟨w, rfl, step_awaiting s w hm ▸ h⟩
  | running =>
    rw [step_running s hm] at h
    cases hd : decodeWord (fetchWord s) with
    | none => rw [hd] at h; simp at h
    | some i => rw [hd] at h; exact .inr ⟨rfl, i, rfl, h⟩

/-- A Step that faults was in mode Running: an illegal word, or the instruction fetched faulted. -/
theorem step_fault_cases (s : State) (f : Fault) (h : step s = .fault f) :
    s.mode = .running ∧
      ((decodeWord (fetchWord s) = none ∧ f = .illegalInstruction) ∨
       (∃ i, decodeWord (fetchWord s) = some i ∧ exec i s = .fault f)) := by
  cases hm : s.mode with
  | awaitingKey w =>
    rw [step_awaiting s w hm] at h
    rcases awaitStep_cases w s with ⟨_, e⟩ | ⟨k, _, e⟩ <;> rw [e] at h <;> cases h
  | running =>
    refine ⟨rfl, ?_⟩
    rw [step_running s hm] at h
    cases hd : decodeWord (fetchWord s) with
    | none => rw [hd] at h; cases h; exact .inl ⟨rfl, rfl⟩
    | some i => rw [hd] at h; exact .inr ⟨i, rfl, h⟩

end Sys2Proof.Machine
end

