-- ==== Sys2Proof/Laws/Ports.lean ====
section
/-! SUPPORT. What one clock of the port-level reading can do, operation by operation. -/

namespace Sys2Proof.Machine

/-- With one operation asked for, no other pin is asserted. -/
theorem assertedOps_eq_one (p : PortIn) (h : assertedOps p = 1) :
    (p.rst = true → p.step = false ∧ p.tick = false ∧ p.keyWe = false ∧ (p.ldStart || p.ldWe) = false) ∧
    (p.step = true → p.rst = false ∧ p.tick = false ∧ p.keyWe = false ∧ (p.ldStart || p.ldWe) = false) ∧
    (p.tick = true → p.rst = false ∧ p.step = false ∧ p.keyWe = false ∧ (p.ldStart || p.ldWe) = false) ∧
    (p.keyWe = true → p.rst = false ∧ p.step = false ∧ p.tick = false ∧ (p.ldStart || p.ldWe) = false) ∧
    ((p.ldStart || p.ldWe) = true → p.rst = false ∧ p.step = false ∧ p.tick = false ∧ p.keyWe = false) := by
  unfold assertedOps at h
  revert h
  generalize p.rst = a; generalize p.step = b; generalize p.tick = c; generalize p.keyWe = d
  generalize (p.ldStart || p.ldWe) = e
  cases a <;> cases b <;> cases c <;> cases d <;> cases e <;> decide

theorem clock_two (p : PortIn) (s : PortState) (h : assertedOps p > 1) : clock p s = none := by
  unfold clock; rw [if_pos h]

theorem clock_none (p : PortIn) (s : PortState) (h : assertedOps p = 0) :
    clock p s = some (s, portOut p none s.core) := by
  have h' : p.rst = false ∧ p.step = false ∧ p.tick = false ∧ p.keyWe = false ∧ (p.ldStart || p.ldWe) = false := by
    unfold assertedOps at h
    revert h
    generalize p.rst = a; generalize p.step = b; generalize p.tick = c; generalize p.keyWe = d
    generalize (p.ldStart || p.ldWe) = e
    revert a b c d e; decide
  obtain ⟨h1, h2, h3, h4, h5⟩ := h'
  unfold clock; rw [if_neg (by omega), h1, h2, h3, h4, h5]; rfl

theorem clock_rst (p : PortIn) (s : PortState) (h : assertedOps p = 1) (hp : p.rst = true) :
    clock p s = some (clockOp p none State.reset) := by
  unfold clock; rw [if_neg (by omega), if_pos hp]

theorem clock_step (p : PortIn) (s : PortState) (h : assertedOps p = 1) (hp : p.step = true) :
    clock p s = some (clockOp p (resultCode (portStep p.rndIn s.core)) (settle s.core (portStep p.rndIn s.core))) := by
  unfold clock
  rw [if_neg (by omega), ((assertedOps_eq_one p h).2.1 hp).1, if_neg Bool.false_ne_true, if_pos hp]

theorem clock_tick (p : PortIn) (s : PortState) (h : assertedOps p = 1) (hp : p.tick = true) :
    clock p s = some (clockOp p none (tick s.core)) := by
  obtain ⟨h1, h2, -⟩ := (assertedOps_eq_one p h).2.2.1 hp
  unfold clock; rw [if_neg (by omega), h1, h2, if_neg Bool.false_ne_true, if_neg Bool.false_ne_true, if_pos hp]

theorem clock_keyWe (p : PortIn) (s : PortState) (h : assertedOps p = 1) (hp : p.keyWe = true) :
    clock p s = some (clockOp p none (setKey p.keyIdx p.keyVal s.core)) := by
  obtain ⟨h1, h2, h3, -⟩ := (assertedOps_eq_one p h).2.2.2.1 hp
  unfold clock
  rw [if_neg (by omega), h1, h2, h3, if_neg Bool.false_ne_true, if_neg Bool.false_ne_true, if_neg Bool.false_ne_true,
    if_pos hp]

theorem clock_load (p : PortIn) (s : PortState) (h : assertedOps p = 1) (hp : (p.ldStart || p.ldWe) = true) :
    clock p s = clockLoad p s := by
  obtain ⟨h1, h2, h3, h4⟩ := (assertedOps_eq_one p h).2.2.2.2 hp
  unfold clock
  rw [if_neg (by omega), h1, h2, h3, h4, if_neg Bool.false_ne_true, if_neg Bool.false_ne_true, if_neg Bool.false_ne_true,
    if_neg Bool.false_ne_true, if_pos hp]

/-- What one clock can be: nothing, one operation, or a step of a Load. -/
theorem clock_cases (p : PortIn) (s t : PortState) (o : PortOut) (h : clock p s = some (t, o)) :
    (assertedOps p = 0 ∧ t = s ∧ o = portOut p none s.core) ∨
    (assertedOps p = 1 ∧
      ((p.rst = true ∧ (t, o) = clockOp p none State.reset) ∨
       (p.step = true ∧
        (t, o) = clockOp p (resultCode (portStep p.rndIn s.core)) (settle s.core (portStep p.rndIn s.core))) ∨
       (p.tick = true ∧ (t, o) = clockOp p none (tick s.core)) ∨
       (p.keyWe = true ∧ (t, o) = clockOp p none (setKey p.keyIdx p.keyVal s.core)) ∨
       ((p.ldStart || p.ldWe) = true ∧ clockLoad p s = some (t, o)))) := by
  rcases Nat.lt_trichotomy (assertedOps p) 1 with h1 | h1 | h1
  · have h0 : assertedOps p = 0 := by omega
    rw [clock_none p s h0] at h
    simp only [Option.some.injEq, Prod.mk.injEq] at h
    exact .inl ⟨h0, h.1.symm, h.2.symm⟩
  · refine .inr ⟨h1, ?_⟩
    by_cases hr : p.rst = true
    · exact .inl ⟨hr, Option.some.inj (h.symm.trans (clock_rst p s h1 hr))⟩
    by_cases hs : p.step = true
    · exact .inr (.inl ⟨hs, Option.some.inj (h.symm.trans (clock_step p s h1 hs))⟩)
    by_cases ht : p.tick = true
    · exact .inr (.inr (.inl ⟨ht, Option.some.inj (h.symm.trans (clock_tick p s h1 ht))⟩))
    by_cases hk : p.keyWe = true
    · exact .inr (.inr (.inr (.inl ⟨hk, Option.some.inj (h.symm.trans (clock_keyWe p s h1 hk))⟩)))
    have hl : (p.ldStart || p.ldWe) = true := by
      unfold assertedOps at h1
      revert h1 hr hs ht hk
      generalize p.rst = a; generalize p.step = b; generalize p.tick = c; generalize p.keyWe = d
      generalize (p.ldStart || p.ldWe) = e
      revert a b c d e; decide
    exact .inr (.inr (.inr (.inr ⟨hl, (clock_load p s h1 hl).symm.trans h⟩)))
  · rw [clock_two p s h1] at h; cases h

/-- A Step at the pins that runs no RND is the machine's Step. -/
theorem portStep_of_not_rnd (b : Byte) (s : State)
    (h : ∀ x nn, s.mode = .running → decodeWord (fetchWord s) ≠ some (.rndVxByte x nn)) : portStep b s = step s := by
  unfold portStep
  split
  · rename_i x nn l hm hf
    rw [fetch_eq] at hf
    split at hf
    · rename_i hd
      simp only [Except.ok.injEq, Prod.mk.injEq] at hf
      exact absurd (hf.1 ▸ hd) (h x nn hm)
    · cases hf
  · rfl

/-- A Step at the pins that runs RND masks the byte on `rnd_in`. -/
theorem portStep_of_rnd (b : Byte) (s : State) (x : Nibble) (nn : Byte) (hm : s.mode = .running)
    (h : decodeWord (fetchWord s) = some (.rndVxByte x nn)) : portStep b s = .next (rndWith b x nn s) := by
  unfold portStep; rw [hm, (fetch_ok_iff s _).mpr h]

theorem loadWrite_idle (a : Addr) (b : Byte) (s : State) : loadWrite a b ⟨s, none⟩ = none := rfl

/-- A byte that fits is stored. -/
theorem loadWrite_next (b : Byte) (s : State) (l : PortLoad) (h : l.written < Config.maxProg) :
    loadWrite l.nextAddr b ⟨s, some l⟩ =
      some (⟨memWrite s l.nextAddr.toNat b, some { l with written := l.written + 1 }⟩,
        .next (memWrite s l.nextAddr.toNat b)) := by
  simp only [loadWrite, ne_eq, not_true_eq_false, if_false, if_pos h]

/-- A byte too many ends in LoadTooLarge and the state before the Load. -/
theorem loadWrite_tooLarge (b : Byte) (s : State) (l : PortLoad) (h : ¬ l.written < Config.maxProg) :
    loadWrite l.nextAddr b ⟨s, some l⟩ =
      some (⟨l.before, some { l with written := l.written + 1 }⟩, .fault .loadTooLarge) := by
  simp only [loadWrite, ne_eq, not_true_eq_false, if_false, if_neg h, raise]

/-- A load write that has a transition goes to the next address of a Load under way. -/
theorem loadWrite_under_way (a : Addr) (b : Byte) (s : PortState) (r : PortState × Result)
    (h : loadWrite a b s = some r) : ∃ l, s.load = some l ∧ a = l.nextAddr := by
  unfold loadWrite at h
  split at h
  · cases h
  · rename_i l hl
    split at h
    · cases h
    · rename_i ha; exact ⟨l, hl, not_not.mp ha⟩

/-- While a Load's bytes fit, their addresses are those of the operation Load. -/
theorem PortLoad.nextAddr_toNat (l : PortLoad) (h : l.written < Config.maxProg) :
    l.nextAddr.toNat = Config.progBase + l.written := by
  simp only [PortLoad.nextAddr, BitVec.toNat_ofNat, Config.progBase, Config.maxProg] at *; omega

/-- The output pins show the state the clock leaves. -/
theorem clock_out (p : PortIn) (s t : PortState) (o : PortOut) (h : clock p s = some (t, o)) :
    ∃ r, o = portOut p r t.core := by
  rcases clock_cases p s t o h with ⟨-, rfl, rfl⟩ | ⟨-, ⟨-, e⟩ | ⟨-, e⟩ | ⟨-, e⟩ | ⟨-, e⟩ | ⟨-, e⟩⟩
  · exact ⟨_, rfl⟩
  · cases e; exact ⟨_, rfl⟩
  · cases e; exact ⟨_, rfl⟩
  · cases e; exact ⟨_, rfl⟩
  · cases e; exact ⟨_, rfl⟩
  · simp only [clockLoad] at e
    split at e
    · cases hw : loadWrite p.ldAddr p.ldData (if p.ldStart = true then loadStart s else s) with
      | none => rw [hw] at e; cases e
      | some r => rw [hw] at e; cases e; exact ⟨_, rfl⟩
    · cases e; exact ⟨_, rfl⟩

end Sys2Proof.Machine
end

