-- ==== Sys2Proof/Tests/Slice0.lean ====
section
/-! SUPPORT. The model's own tests: expected results are the spec's (spec/95_test_vectors.md, ids in the comments), never the
model's own answers. One Step each, from Reset with the registers and bytes a test names. -/

namespace Sys2Proof.Tests

open Sys2Proof.Machine

/-- A state with registers set. -/
def regs (l : List (Nibble × Byte)) (s : State) : State := l.foldl (fun s xb => setV s xb.1 xb.2) s

/-- A state with memory bytes set. -/
def bytes (a : Nat) (bs : List Byte) (s : State) : State := { s with mem := Memory.writeAll s.mem a bs }

/-- A state with a key pressed. -/
def press (k : Nibble) (s : State) : State := setKey k true s

/-- The word stored where the next Step fetches. -/
def at_ (w : Nat) (s : State) : State := s.withFetchWord 16 w

/-- The state after one Step of a word. -/
def run1 (w : Nat) (s : State) : State := after (at_ w s) .step

/-- The result code of one Step of a word. -/
def code1 (w : Nat) (s : State) : Option (BitVec 3) := resultCode (step (at_ w s))

/-! ## Well-formedness smoke: an ill-formed word for each class that has one (IL1 to IL11) -/

theorem test_illFormed_class0 : wellFormedWord 0x0000 = false ∧ wellFormedWord 0x00E1 = false ∧
    wellFormedWord 0x0123 = false ∧ wellFormedWord 0x00E0 = true := by decide
theorem test_illFormed_class5_9 : wellFormedWord 0x5011 = false ∧ wellFormedWord 0x9011 = false ∧
    wellFormedWord 0x5010 = true := by decide
theorem test_illFormed_class8 : wellFormedWord 0x8018 = false ∧ wellFormedWord 0x801F = false ∧
    wellFormedWord 0x801E = true := by decide
theorem test_illFormed_classE_F : wellFormedWord 0xE09F = false ∧ wellFormedWord 0xF000 = false ∧
    wellFormedWord 0xF075 = false ∧ wellFormedWord 0xFFFF = false ∧ wellFormedWord 0xF065 = true := by decide
theorem test_illegal_words_do_not_decode :
    ([0x0000, 0x00E1, 0x0123, 0x5011, 0x9011, 0x8018, 0x801F, 0xE09F, 0xF000, 0xF075, 0xFFFF] : List Half).all
      (fun w => (decodeWord w).isNone) = true := by decide
theorem test_wellFormed_instr : (Instr.drwVxVyN 15 15 0).WellFormed = true := by decide

/-! ## Decoding: a word of every row, written out from R64 bit by bit -/

theorem test_decode_flow : decodeWord 0b0000000011100000 = some .cls ∧ decodeWord 0b0000000011101110 = some .ret ∧
    decodeWord 0b0001_1010_1011_1100 = some (.jpAddr 0xABC) ∧ decodeWord 0b0010_0011_0000_0000 = some (.callAddr 0x300) ∧
    decodeWord 0b0011_0011_0100_0010 = some (.seVxByte 3 0x42) ∧
    decodeWord 0b0100_0011_0100_0010 = some (.sneVxByte 3 0x42) ∧
    decodeWord 0b0101_0001_0010_0000 = some (.seVxVy 1 2) ∧ decodeWord 0b1001_0001_0010_0000 = some (.sneVxVy 1 2) ∧
    decodeWord 0b1011_0011_0000_0000 = some (.jpV0Addr 0x300) := by decide
theorem test_decode_alu : decodeWord 0b0110_1010_0111_1100 = some (.ldVxByte 0xA 0x7C) ∧
    decodeWord 0b0111_0001_1111_1111 = some (.addVxByte 1 0xFF) ∧ decodeWord 0b1000_0001_0010_0000 = some (.ldVxVy 1 2) ∧
    decodeWord 0b1000_0001_0010_0001 = some (.orVxVy 1 2) ∧ decodeWord 0b1000_0001_0010_0010 = some (.andVxVy 1 2) ∧
    decodeWord 0b1000_0001_0010_0011 = some (.xorVxVy 1 2) ∧ decodeWord 0b1000_0001_0010_0100 = some (.addVxVy 1 2) ∧
    decodeWord 0b1000_0001_0010_0101 = some (.subVxVy 1 2) ∧ decodeWord 0b1000_0001_0010_0110 = some (.shrVx 1 2) ∧
    decodeWord 0b1000_0001_0010_0111 = some (.subnVxVy 1 2) ∧ decodeWord 0b1000_0001_0010_1110 = some (.shlVx 1 2) ∧
    decodeWord 0b1100_0011_0000_1111 = some (.rndVxByte 3 0x0F) := by decide
theorem test_decode_memory_display : decodeWord 0b1010_0010_1111_0000 = some (.ldIAddr 0x2F0) ∧
    decodeWord 0b1101_0001_0010_0101 = some (.drwVxVyN 1 2 5) ∧ decodeWord 0b1111_0010_0001_1110 = some (.addIVx 2) ∧
    decodeWord 0b1111_0000_0010_1001 = some (.ldFVx 0) ∧ decodeWord 0b1111_0000_0011_0011 = some (.ldBVx 0) ∧
    decodeWord 0b1111_0010_0101_0101 = some (.ldMemVx 2) ∧ decodeWord 0b1111_0010_0110_0101 = some (.ldVxMem 2) := by decide
theorem test_decode_timers_keys : decodeWord 0b1110_0010_1001_1110 = some (.skpVx 2) ∧
    decodeWord 0b1110_0010_1010_0001 = some (.sknpVx 2) ∧ decodeWord 0b1111_0011_0000_0111 = some (.ldVxDT 3) ∧
    decodeWord 0b1111_0011_0001_0101 = some (.ldDTVx 3) ∧ decodeWord 0b1111_0011_0001_1000 = some (.ldSTVx 3) ∧
    decodeWord 0b1111_0001_0000_1010 = some (.ldVxK 1) := by decide
theorem test_decode_bytes_big_endian : decode [0x6A, 0x7C, 0x12] = .ok (.ldVxByte 0xA 0x7C, [0x12]) ∧
    decode [0x6A] = .error .truncated ∧ decode [0xFF, 0xFF] = .error (.illegal 0xFFFF) := by decide
theorem test_decodeTableWord : decodeTableWord 16 0x8014 = some (.addVxVy 0 1) := by decide
theorem test_encode : encode (.drwVxVyN 1 2 5) = 0xD125 ∧ encode (.ldMemVx 2) = 0xF255 ∧ encode (.subnVxVy 1 2) = 0x8127 ∧
    encodeBytes (.callAddr 0x300) = [0x23, 0x00] := by decide

/-! ## Fetch (FD1 to FD7) -/

theorem test_fetch_wraps : -- FD2
    let t := after (bytes 0xFFF [0x6A] { State.reset with pc := 0x0FFF }) .step
    getV t 0xA = 0xF0 ∧ t.pc = 0x1001 := by decide
theorem test_fetch_reduces_pc : -- FD3
    let t := after (bytes 0x200 [0x6B, 0x77] { State.reset with pc := 0x1200 }) .step
    getV t 0xB = 0x77 ∧ t.pc = 0x1202 := by decide
theorem test_fetch_odd : -- FD4
    let t := after (bytes 0x203 [0x6C, 0x42] { State.reset with pc := 0x0203 }) .step
    getV t 0xC = 0x42 ∧ t.pc = 0x0205 := by decide
theorem test_pc_wraps : -- FD5, FD6
    (run1 0x6000 { State.reset with pc := 0xFFFE }).pc = 0x0000 ∧
    (run1 0x3000 { State.reset with pc := 0xFFFE }).pc = 0x0002 := by decide

/-! ## Flow (FL1 to FL20) -/

theorem test_jp : (run1 0x1ABC State.reset).pc = 0x0ABC ∧ (run1 0x1201 State.reset).pc = 0x0201 := by decide -- FL1, FL3
theorem test_call : -- FL4
    let t := run1 0x2300 State.reset
    t.stack[0] = 0x0202 ∧ t.sp = 1 ∧ t.pc = 0x0300 := by decide
theorem test_call_full : -- FL5, FT3
    code1 0x2300 { State.reset with sp := 16 } = some (faultCode .stackOverflow) ∧
    (run1 0x2300 { State.reset with sp := 16 }).pc = 0x0200 := by decide
theorem test_ret : -- FL7
    let t := run1 0x00EE { State.reset with sp := 2, stack := (State.reset.stack.set 0 0x0202).set 1 0x0456 }
    t.sp = 1 ∧ t.pc = 0x0456 ∧ t.stack[1] = 0x0456 := by decide
theorem test_ret_empty : code1 0x00EE State.reset = some (faultCode .stackUnderflow) := by decide -- FL6
theorem test_jpV0 : (run1 0xBFFF (regs [(0, 0xFF)] State.reset)).pc = 0x10FE ∧ -- FL9, FL8
    (run1 0xB300 (regs [(0, 0x10)] State.reset)).pc = 0x0310 := by decide
theorem test_se_byte : (run1 0x3342 (regs [(3, 0x42)] State.reset)).pc = 0x0204 ∧ -- FL10, FL11
    (run1 0x3343 (regs [(3, 0x42)] State.reset)).pc = 0x0202 := by decide
theorem test_sne_byte : (run1 0x4342 (regs [(3, 0x42)] State.reset)).pc = 0x0202 ∧ -- FL12, FL13
    (run1 0x4343 (regs [(3, 0x42)] State.reset)).pc = 0x0204 := by decide
theorem test_se_reg : (run1 0x5120 (regs [(1, 7), (2, 7)] State.reset)).pc = 0x0204 ∧ -- FL14, FL15
    (run1 0x5120 (regs [(1, 7), (2, 8)] State.reset)).pc = 0x0202 := by decide
theorem test_sne_reg : (run1 0x9120 (regs [(1, 7), (2, 7)] State.reset)).pc = 0x0202 ∧ -- FL17, FL18
    (run1 0x9120 (regs [(1, 7), (2, 8)] State.reset)).pc = 0x0204 := by decide

/-! ## Registers and arithmetic (AL1 to AL37) -/

theorem test_ld_byte : getV (run1 0x6F33 State.reset) 15 = 0x33 := by decide -- S1
theorem test_add_byte : -- AL3, AL4
    getV (run1 0x7102 (regs [(1, 0xFF)] State.reset)) 1 = 0x01 ∧ getV (run1 0x7102 (regs [(1, 0xFF)] State.reset)) 15 = 0 ∧
    getV (run1 0x7F01 (regs [(15, 0xFF)] State.reset)) 15 = 0x00 := by decide
theorem test_ld_reg : getV (run1 0x8010 (regs [(1, 0x5A)] State.reset)) 0 = 0x5A := by decide -- AL5
theorem test_logic : -- AL6, AL7, AL8: VF unchanged
    let s := regs [(0, 0xF0), (1, 0x3C), (15, 1)] State.reset
    getV (run1 0x8011 (regs [(1, 0x0F)] s)) 0 = 0xFF ∧ getV (run1 0x8012 s) 0 = 0x30 ∧ getV (run1 0x8013 s) 0 = 0xCC ∧
    getV (run1 0x8011 s) 15 = 1 ∧ getV (run1 0x8012 s) 15 = 1 ∧ getV (run1 0x8013 s) 15 = 1 := by decide
theorem test_add_carry : -- AL10, AL11
    getV (run1 0x8014 (regs [(0, 0xFF), (1, 1)] State.reset)) 0 = 0 ∧
    getV (run1 0x8014 (regs [(0, 0xFF), (1, 1)] State.reset)) 15 = 1 ∧
    getV (run1 0x8014 (regs [(0, 0x80), (1, 0x7F)] State.reset)) 15 = 0 := by decide
theorem test_add_vf : -- AL14, AL15, AL16
    getV (run1 0x8F14 (regs [(15, 0xF0), (1, 0x20)] State.reset)) 15 = 1 ∧
    getV (run1 0x8F14 (regs [(15, 0x10), (1, 0x20)] State.reset)) 15 = 0 ∧
    getV (run1 0x80F4 (regs [(0, 1), (15, 5)] State.reset)) 0 = 6 := by decide
theorem test_sub : -- AL17, AL19, AL20
    getV (run1 0x8015 (regs [(0, 5), (1, 0xA)] State.reset)) 0 = 0xFB ∧
    getV (run1 0x8015 (regs [(0, 0x33), (1, 0x33)] State.reset)) 15 = 1 ∧
    getV (run1 0x8F15 (regs [(15, 5), (1, 0xA)] State.reset)) 15 = 0 := by decide
theorem test_subn : -- AL22, AL23
    getV (run1 0x8017 (regs [(0, 0xA), (1, 5)] State.reset)) 0 = 0xFB ∧
    getV (run1 0x8017 (regs [(0, 0xA), (1, 5)] State.reset)) 15 = 0 ∧
    getV (run1 0x8017 (regs [(0, 5), (1, 0xA)] State.reset)) 15 = 1 := by decide
theorem test_shr : -- AL25, AL29
    getV (run1 0x8016 (regs [(0, 5), (1, 0xAA)] State.reset)) 0 = 2 ∧
    getV (run1 0x8016 (regs [(0, 5), (1, 0xAA)] State.reset)) 15 = 1 ∧
    getV (run1 0x8F06 (regs [(15, 2)] State.reset)) 15 = 0 := by decide
theorem test_shl : -- AL30, AL34
    getV (run1 0x801E (regs [(0, 0x81), (1, 0x55)] State.reset)) 0 = 2 ∧
    getV (run1 0x801E (regs [(0, 0x81), (1, 0x55)] State.reset)) 15 = 1 ∧
    getV (run1 0x8F0E (regs [(15, 0x7F)] State.reset)) 15 = 0 := by decide
theorem test_rnd_mask_zero : -- AL36: whatever the byte drawn
    getV (run1 0xC300 (regs [(3, 0x55)] State.reset)) 3 = 0 :=
  (by rfl : _ = Config.rndByte 0 &&& 0x00).trans (BitVec.and_zero ..)
theorem test_rnd_with : getV (rndWith 0xA7 3 0x0F State.reset) 3 = 0x07 := by decide -- AL35

/-! ## Address register and memory (IM1 to IM17) -/

theorem test_ldI : (run1 0xA123 State.reset).i = 0x123 := by decide -- IM1
theorem test_addI : (run1 0xF21E (regs [(2, 1)] { State.reset with i := 0xFFF })).i = 0x000 ∧ -- IM3, IM4
    (run1 0xF21E (regs [(2, 0xFF)] { State.reset with i := 0xF80 })).i = 0x07F := by decide
theorem test_ldF : (run1 0xF029 (regs [(0, 0x07)] State.reset)).i = 0x023 ∧ -- IM5, IM7
    (run1 0xF029 (regs [(0, 0x1A)] State.reset)).i = 0x032 := by decide
theorem test_ldB : -- IM8
    let t := run1 0xF033 (regs [(0, 255)] { State.reset with i := 0x300 })
    memRead t 0x300 = 2 ∧ memRead t 0x301 = 5 ∧ memRead t 0x302 = 5 ∧ t.i = 0x300 := by decide
theorem test_ldB_wraps : -- IM11
    let t := run1 0xF033 (regs [(0, 234)] { State.reset with i := 0xFFE })
    memRead t 0xFFE = 2 ∧ memRead t 0xFFF = 3 ∧ memRead t 0x000 = 4 := by decide
theorem test_store : -- IM12
    let t := run1 0xF255 (regs [(0, 0x11), (1, 0x22), (2, 0x33), (3, 0x44)] { State.reset with i := 0x300 })
    memRead t 0x300 = 0x11 ∧ memRead t 0x301 = 0x22 ∧ memRead t 0x302 = 0x33 ∧ memRead t 0x303 = 0 ∧ t.i = 0x300 := by decide
theorem test_store_keeps_canonical_form : -- storing what an unlisted address reads as lists nothing
    (run1 0xF055 (regs [(0, 0xF0)] { State.reset with i := 0x000 })).mem = [(0x200, 0xF0), (0x201, 0x55)] := by decide
theorem test_load : -- IM16
    let t := run1 0xF265 (regs [(3, 0x99)] (bytes 0xFFF [0xAB] { State.reset with i := 0xFFF }))
    getV t 0 = 0xAB ∧ getV t 1 = 0xF0 ∧ getV t 2 = 0x90 ∧ getV t 3 = 0x99 ∧ t.i = 0xFFF := by decide

/-! ## Display (DS1 to DS7) -/

theorem test_cls : -- DS1
    let t := run1 0x00E0 (regs [(15, 1)] { State.reset with display := setPixel State.reset.display 31 63 true })
    getPixel t.display 31 63 = false ∧ getV t 15 = 1 := by decide
theorem test_drw_wraps : -- DS2
    let t := run1 0xD011 (regs [(0, 60)] (bytes 0x300 [0xFF] { State.reset with i := 0x300 }))
    ([60, 61, 62, 63, 0, 1, 2, 3].all (getPixel t.display 0)) = true ∧ getPixel t.display 0 4 = false ∧
    getPixel t.display 0 59 = false ∧ getV t 15 = 0 := by decide
theorem test_drw_collision : -- DS5
    let d := setPixel (setPixel State.reset.display 31 1 true) 5 5 true
    let t := run1 0xD012 (regs [(1, 31)] (bytes 0x300 [0xC0, 0x81] { State.reset with i := 0x300, display := d }))
    getPixel t.display 0 0 = true ∧ getPixel t.display 0 7 = true ∧ getPixel t.display 31 0 = true ∧
    getPixel t.display 31 1 = false ∧ getPixel t.display 5 5 = true ∧ getV t 15 = 1 := by decide
theorem test_drw_vf_coordinate : -- DS6
    let t := run1 0xDF01 (regs [(15, 4), (0, 2)] (bytes 0x300 [0x80] { State.reset with i := 0x300 }))
    getPixel t.display 2 4 = true ∧ getV t 15 = 0 := by decide
theorem test_drw_height_zero : -- DS4
    let t := run1 0xD010 (regs [(15, 1)] (bytes 0x300 [0xFF] { State.reset with i := 0x300 }))
    getPixel t.display 0 0 = false ∧ getV t 15 = 0 := by decide

/-! ## Timers and keys (TK1 to TK13, KW1 to KW7) -/

theorem test_ldVxDT : getV (run1 0xF307 { State.reset with dt := 0x2A }) 3 = 0x2A := by decide -- TK1
theorem test_ldDT : (run1 0xF315 (regs [(3, 0x2A)] State.reset)).dt = 0x2A ∧ -- TK2
    (run1 0xF315 (regs [(3, 0x2A)] State.reset)).st = 0 := by decide
theorem test_ldST : (run1 0xF318 (regs [(3, 0x2A)] State.reset)).st = 0x2A := by decide -- TK3
theorem test_skp : (run1 0xE29E (press 5 (regs [(2, 0xF5)] State.reset))).pc = 0x0204 ∧ -- TK9, TK8
    (run1 0xE29E (regs [(2, 5)] State.reset)).pc = 0x0202 := by decide
theorem test_sknp : (run1 0xE2A1 (press 5 (regs [(2, 5)] State.reset))).pc = 0x0202 ∧ -- TK11, TK10
    (run1 0xE2A1 (regs [(2, 5)] State.reset)).pc = 0x0204 := by decide
theorem test_ldK : -- KW1, first Step
    let t := run1 0xF00A (press 3 State.reset)
    t.mode = .awaitingKey 0 ∧ getKey t.kp 3 = true ∧ t.pc = 0x0200 := by decide

/-- A machine waiting at `LD V0,K` with the given latch and snapshot. -/
def waiting (x : Nibble) (k kp : List Nibble) : State :=
  { at_ (0xF00A + 256 * x.toNat) (k.foldl (fun s j => press j s) State.reset) with
    mode := .awaitingKey x, kp := (kp.foldl (fun s j => press j s) State.reset).k }

theorem test_wait_lowest_key : -- KW2
    let t := after (waiting 0 [9, 4] []) .step
    getV t 0 = 4 ∧ t.pc = 0x0202 ∧ t.mode = .running := by decide
theorem test_wait_held_key_is_not_new : -- KW4, KW1
    getV (after (waiting 0 [1, 3] [1]) .step) 0 = 3 ∧ (after (waiting 0 [3] [3]) .step).pc = 0x0200 := by decide
theorem test_wait_release : getKey (after (waiting 0 [] [3]) .step).kp 3 = false := by decide -- KW1, third Step
theorem test_wait_vf : getV (after (waiting 15 [0xB] []) .step) 15 = 0x0B := by decide -- KW5
theorem test_tick : (tick { State.reset with dt := 1, st := 0 }).dt = 0 ∧ -- TK4, TK5
    (tick { State.reset with dt := 0, st := 0xFF }).dt = 0 ∧ (tick { State.reset with dt := 0, st := 0xFF }).st = 0xFE := by decide
theorem test_tick_while_waiting : (after { waiting 1 [] [] with dt := 3 } .tick).dt = 2 := by decide -- TK13

/-! ## Faults, Reset, Load, pins -/

theorem test_reset_first_step : resultCode (step State.reset) = some (faultCode .illegalInstruction) := by decide -- FT1
theorem test_reset_font : memRead State.reset 0x000 = 0xF0 ∧ memRead State.reset 0x005 = 0x20 ∧ -- RS1
    memRead State.reset 0x04B = 0xF0 ∧ memRead State.reset 0x04F = 0x80 ∧ memRead State.reset 0x050 = 0 := by decide
theorem test_load_program : -- RS2, RS5
    let t := after (waiting 3 [] []) (.load [0x12, 0x00])
    memRead t 0x200 = 0x12 ∧ memRead t 0x201 = 0x00 ∧ t.mode = .running := by decide
theorem test_load_too_large : -- FT5
    resultCode (load (List.replicate 3585 0)) = some (faultCode .loadTooLarge) := by
  have h : (List.replicate 3585 (0 : Byte)).length > Config.maxProg := by rw [List.length_replicate]; decide
  rw [load, if_pos h]; rfl
theorem test_isFinal : isFinal (at_ 0x1200 State.reset) = true ∧ isFinal (at_ 0x1202 State.reset) = false := by decide -- R186
/-- The machine behind the pins, no Load under way. -/
def idle (s : State) : PortState := ⟨s, none⟩

/-- A Load that has received `n` bytes, over a machine with ST = 7. -/
def loading (n : Nat) : PortState := ⟨State.reset, some ⟨{ State.reset with st := 7 }, n⟩⟩

theorem test_clock_rnd : -- R172: the byte on the pin
    ((clock { noPins with step := true, rndIn := 0xA7 } (idle (at_ 0xC30F State.reset))).map (fun r => getV r.1.core 3)) =
      some 0x07 := by decide
theorem test_clock_two_pins : clock { noPins with step := true, tick := true } (idle State.reset) = none := by decide
theorem test_clock_bare_ldWe : -- R53, log 11
    clock { noPins with ldWe := true, ldAddr := 0x200 } (idle State.reset) = none := by decide
theorem test_clock_last_byte : -- RS5 at the pins: byte 3584 goes to 0xFFF
    (clock { noPins with ldWe := true, ldAddr := 0xFFF, ldData := 0x77 } (loading 3583)).map
      (fun r => (memRead r.1.core 0xFFF, r.2.result)) = some (0x77, some 0) := by decide
theorem test_clock_loadTooLarge : -- FT5 at the pins: result 4, the state as before the Load
    (clock { noPins with ldWe := true, ldAddr := 0x000, ldData := 0x77 } (loading 3584)).map
      (fun r => (r.1.core.st, memRead r.1.core 0x000, r.2.result)) = some (7, 0xF0, some 4) := by decide
theorem test_clocks_load : -- R184 at the pins
    (clocks startPins (bytePins 0 [0x12, 0x00]) (loading 5)).map
      (fun r => (memRead r.1.core 0x200, r.1.core.pc, r.2.result)) = some (0x12, 0x200, some 0) := by decide

/-! ## Witnesses: a state and operands that meet the hypotheses of each statement, clause by clause

Each is named after its statement. The values are the edges of the clause where it has edges. -/

open Sys2Proof.Spec

/-- Full, all but full, one-entry and empty stacks, `CALL 0x300` or `RET` at PC. -/
def withSp (w : Nat) (n : Fin 17) : State := at_ w { State.reset with sp := n }

theorem witness_EncodeOfDecode_OperandsAreTheFields : decodeWord 0xFF65 = some (.ldVxMem 15) ∧ decodeWord 0x00E0 = some .cls := by decide
theorem witness_DecoderAgrees_row : ∃ row ∈ opcodeTable, (0xDFFF : Half) &&& row.mask = row.pattern ∧
    row.mnemonic = (Instr.drwVxVyN 15 15 15).mnemonic := by decide
theorem witness_DecoderAgrees_twoRows : ∃ row ∈ opcodeTable, ∃ row' ∈ opcodeTable,
    (0x00EE : Half) &&& row.mask = row.pattern ∧ (0x00EE : Half) &&& row'.mask = row'.pattern := by decide
theorem witness_StepRuns : (waiting 15 [] []).mode = .awaitingKey 15 ∧
    (State.reset.mode = .running ∧ decodeWord (wordAtPc State.reset) = none) ∧
    (let s := at_ 0xFF65 { State.reset with pc := 0xFFFF }
     s.mode = .running ∧ decodeWord (wordAtPc s) = some (.ldVxMem 15)) := by decide
theorem witness_IllegalWordRaises : (waiting 0 [] []).mode = .awaitingKey 0 ∧
    ((at_ 0x8004 State.reset).mode = .running ∧ wordAtPc (at_ 0x8004 State.reset) = 0x8004) ∧
    ((at_ 0xFFFF State.reset).mode = .running ∧ wordAtPc (at_ 0xFFFF State.reset) = 0xFFFF) := by decide
theorem witness_StepFaultsExactly :
    (State.reset.mode = .running ∧ decodeWord (wordAtPc State.reset) = none) ∧
    (decodeWord (wordAtPc (withSp 0x2300 16)) = some (.callAddr 0x300) ∧ (withSp 0x2300 16).sp.val = 16) ∧
    (decodeWord (wordAtPc (withSp 0x00EE 0)) = some .ret ∧ (withSp 0x00EE 0).sp.val = 0) := by decide
theorem witness_StepIsTotal : ({ State.reset with i := 0x0FFF } : State).i.toNat < 4096 := by decide

/-- A machine with V0 and VF to store at the last address and the first. -/
def storing : State := at_ 0xF155 (regs [(0, 0xF0), (1, 0xFF)] { State.reset with i := 0x0FFF })

theorem inv_of_running (s : State) (hm : Memory.wf s.mem) (hi : s.i.toNat < 4096) (hr : s.mode = .running) : Inv s :=
  ⟨hm, hi, fun t h => by rw [hr] at h; cases h⟩
theorem witness_StepKeepsInvariant : Inv storing ∧ ∃ t, step storing = .next t :=
  ⟨inv_of_running _ (by decide) (by decide) (by decide), _, rfl⟩
theorem witness_StepKeepsInvariant_waiting : Inv (waiting 15 [0] [1]) ∧ ∃ t, step (waiting 15 [0] [1]) = .next t :=
  ⟨⟨by decide, by decide, fun t h => by cases h; decide⟩, _, rfl⟩
theorem witness_SchedulesKeepInvariant : Inv (waiting 15 [0] [1]) := witness_StepKeepsInvariant_waiting.1

theorem witness_AccessMatrix : (∃ t, exec (.ldVxMem 15) State.reset = .next t) ∧
    (∃ t, (waiting 0 [0] []).mode = .awaitingKey 0 ∧ step (waiting 0 [0] []) = .next t) ∧
    (∃ t, perform .tick { State.reset with dt := 1 } = .next t) ∧
    (∃ t, perform (.setKey 15 true) State.reset = .next t) := ⟨⟨_, rfl⟩, ⟨_, by decide, rfl⟩, ⟨_, rfl⟩, ⟨_, rfl⟩⟩
theorem witness_AccessMatrix_outside : ¬ MatrixReg (.ldVxMem 14) 15 ∧ MatrixReg (.ldVxMem 14) 14 ∧
    ¬ MatrixReg .cls 15 ∧ MatrixReg (.shrVx 0 3) 15 := by simp [MatrixReg]
theorem witness_PcUpdate : (∃ t, exec (.seVxByte 0 0) { State.reset with pc := 0xFFFE } = .next t) ∧
    (∃ t, step (waiting 0 [0] []) = .next t ∧ t.mode = .running) ∧
    (∃ t, step (waiting 0 [0] [0]) = .next t ∧ t.mode ≠ .running) :=
  ⟨⟨_, rfl⟩, ⟨_, rfl, by decide⟩, ⟨_, rfl, by decide⟩⟩
theorem witness_FlagWriters : (WritesFlag (.shlVx 15 0) ∧ ∃ t, exec (.shlVx 15 0) State.reset = .next t) ∧
    (¬ WritesFlag (.orVxVy 0 1) ∧ ¬ NamesVf (.orVxVy 0 1) ∧ ∃ t, exec (.orVxVy 0 1) State.reset = .next t) :=
  ⟨⟨trivial, _, rfl⟩, id, by simp [NamesVf], _, rfl⟩

/-- A Step in mode Running that changes a part. -/
theorem witness_OnlyNamed_i : ∃ t, step (at_ 0xAFFF State.reset) = .next t ∧ t.i ≠ (at_ 0xAFFF State.reset).i :=
  ⟨_, rfl, by decide⟩
theorem witness_OnlyNamed_stack : ∃ t, step (withSp 0x2300 15) = .next t ∧ t.sp ≠ (withSp 0x2300 15).sp ∧
    t.stack ≠ (withSp 0x2300 15).stack := ⟨_, rfl, by decide⟩
theorem witness_OnlyNamed_pixel : ∃ t, step (at_ 0xD011 State.reset) = .next t ∧
    getPixel t.display 0 3 ≠ getPixel (at_ 0xD011 State.reset).display 0 3 := ⟨_, rfl, by decide⟩
theorem witness_OnlyNamed_timers :
    (∃ t, step (at_ 0xF015 (regs [(0, 1)] State.reset)) = .next t ∧ t.dt ≠ 0) ∧
    (∃ t, step (at_ 0xF018 (regs [(0, 1)] State.reset)) = .next t ∧ t.st ≠ 0) := ⟨⟨_, rfl, by decide⟩, _, rfl, by decide⟩
theorem witness_OnlyNamed_mode : ∃ t, step (at_ 0xFF0A State.reset) = .next t ∧ t.mode ≠ .running := ⟨_, rfl, by decide⟩
theorem witness_OnlyNamed_rng : ∃ t, step (at_ 0xC0FF State.reset) = .next t ∧ t.rng ≠ (at_ 0xC0FF State.reset).rng :=
  ⟨_, rfl, by decide⟩

/-- The source's sprite at (60, 0) (S2), over a pixel already set. -/
def sprite60 : State := regs [(0, 60)] (bytes 0x300 [0xFF]
  { State.reset with i := 0x300, display := setPixel State.reset.display 0 0 true })

/-- The sprite's state with the display the first draw leaves. -/
def sprite60Again : State := { after (at_ 0xD011 sprite60) .step with mem := sprite60.mem, pc := 0x0200 }

theorem witness_DrawTwice : ∃ t, exec (.drwVxVyN 0 1 1) sprite60 = .next t ∧ sprite60Again.display = t.display ∧
    sprite60Again.i = sprite60.i ∧ (∀ a, memRead sprite60Again a = memRead sprite60 a) ∧
    getV sprite60Again 0 = getV sprite60 0 ∧ getV sprite60Again 1 = getV sprite60 1 :=
  ⟨_, rfl, by decide, by decide, fun _ => rfl, by decide, by decide⟩
theorem witness_SecondDraw : ∃ v, exec (.drwVxVyN 0 1 1) sprite60Again = .next v ∧ getV v 15 = 1 := ⟨_, rfl, by decide⟩
theorem witness_SecondDrawAfterCleanDraw :
    let s := regs [(0, 60)] (bytes 0x300 [0xFF] { State.reset with i := 0x300 })
    ∃ t, exec (.drwVxVyN 0 1 1) s = .next t ∧ getV t 15 = 0 ∧ t.display = t.display ∧ t.i = s.i ∧
      (∀ a, memRead t a = memRead s a) ∧ getV t 0 = getV s 0 ∧ getV t 1 = getV s 1 :=
  ⟨_, rfl, by decide, rfl, by decide, fun _ => rfl, by decide, by decide⟩
theorem witness_DrawCoordinatesWrap :
    let s := regs [(0, 63), (1, 31)] State.reset
    let u := regs [(0, 255), (1, 255)] State.reset
    u.display = s.display ∧ u.i = s.i ∧ (∀ a, memRead u a = memRead s a) ∧
    (getV u 0).toNat % 64 = (getV s 0).toNat % 64 ∧ (getV u 1).toNat % 32 = (getV s 1).toNat % 32 :=
  ⟨by decide, by decide, fun _ => rfl, by decide, by decide⟩
theorem witness_RetPops : (withSp 0x00EE 1).sp.val ≠ 0 ∧ (withSp 0x00EE 16).sp.val ≠ 0 ∧
    (withSp 0x00EE 0).sp.val = 0 := by decide
theorem witness_CallPushes : (withSp 0x2300 15).sp.val < 16 ∧ (withSp 0x2300 16).sp.val = 16 := by decide
theorem witness_RetResumesAfterCall : ∃ t, (withSp 0x2300 15).sp.val < 16 ∧
    exec (.callAddr 0x300) (withSp 0x2300 15) = .next t ∧ { t with dt := 1 }.sp = t.sp ∧
    { t with dt := 1 }.stack = t.stack := ⟨_, by decide, rfl, rfl, rfl⟩
theorem witness_Skips : (getV State.reset 15 = (0 : Byte)) ∧ ¬ getV State.reset 15 = (1 : Byte) ∧
    getV State.reset 0 = getV State.reset 15 ∧ ¬ getV (regs [(0, 1)] State.reset) 0 = getV State.reset 15 := by decide
theorem witness_KeySkips : getKey (press 15 State.reset).k (BitVec.ofNat 4 (0xFF % 16)) = true ∧
    getKey (press 15 State.reset).k (BitVec.ofNat 4 (0xE0 % 16)) = false := by decide
theorem witness_WritesRegFlag : (14 : Nibble) ≠ 15 ∧ (∃ r : Nibble, r ≠ 15 ∧ r ≠ 14) := by decide
theorem witness_StoreThenLoad : ∃ t, exec (.ldMemVx 15) storing = .next t ∧ { t with v := State.reset.v }.i = t.i ∧
    ∀ a, memRead { t with v := State.reset.v } a = memRead t a := ⟨_, rfl, rfl, fun _ => rfl⟩

/-- A store of `LD V0,0x12` to the next PC. -/
def selfModifying : State := regs [(0, 0x60), (1, 0x12)] { State.reset with i := 0x0202 }

theorem witness_StoreIsSeenByNextFetch : ∃ t, selfModifying.mode = .running ∧ 1 ≤ (1 : Nibble).toNat ∧
    selfModifying.i.toNat % 4096 = (selfModifying.pc + 2).toNat % 4096 ∧ exec (.ldMemVx 1) selfModifying = .next t ∧
    decodeWord (BitVec.ofNat 16 (256 * (getV selfModifying 0).toNat + (getV selfModifying 1).toNat)) =
      some (.ldVxByte 0 0x12) := ⟨_, by decide, by decide, by decide, rfl, by decide⟩
theorem witness_WaitingStep : (waiting 0 [3] [3]).mode = .awaitingKey 0 ∧ (∀ k, ¬ NewKey (waiting 0 [3] [3]) k) ∧
    NewKey (waiting 0 [3, 9, 15] [3]) 9 ∧ (∀ j : Nibble, j.toNat < (9 : Nibble).toNat → ¬ NewKey (waiting 0 [3, 9, 15] [3]) j) ∧
    NewKey (waiting 15 [15] []) 15 := by
  unfold NewKey; decide
theorem witness_WaitHoldsWithoutNewKey : (waiting 15 [0, 15] [0, 15]).mode = .awaitingKey 15 ∧
    ∀ k, ¬ NewKey (waiting 15 [0, 15] [0, 15]) k := by
  unfold NewKey; decide
theorem witness_KeyWaitStateMachine_running :
    (∃ t, (at_ 0xFF0A State.reset).mode = .running ∧ step (at_ 0xFF0A State.reset) = .next t ∧
      decodeWord (wordAtPc (at_ 0xFF0A State.reset)) = some (.ldVxK 15)) ∧
    (∃ t, (at_ 0x00E0 State.reset).mode = .running ∧ step (at_ 0x00E0 State.reset) = .next t ∧
      decodeWord (wordAtPc (at_ 0x00E0 State.reset)) = some .cls) := ⟨⟨_, by decide, rfl, by decide⟩, _, by decide, rfl, by decide⟩
theorem witness_KeyWaitStateMachine_waiting :
    (∃ t, step (waiting 0 [15] []) = .next t ∧ NewKey (waiting 0 [15] []) 15) ∧
    (∃ t, step (waiting 0 [] [15]) = .next t ∧ ∀ k, ¬ NewKey (waiting 0 [] [15]) k) := by
  unfold NewKey; exact ⟨⟨_, rfl, by decide⟩, _, rfl, by decide⟩
theorem witness_KeyWaitStateMachine_load : ∃ t, perform (.load [0x12, 0x00]) (waiting 0 [] []) = .next t := ⟨_, rfl⟩
theorem witness_SnapshotIsDead : (at_ 0xF00A State.reset).mode = .running ∧ (at_ 0xE29E State.reset).mode = .running := by decide
theorem witness_LoadCopies : (List.replicate 3584 (0xFF : Byte)).length ≤ 3584 ∧
    (List.replicate 3585 (0xFF : Byte)).length > 3584 := by
  rw [List.length_replicate, List.length_replicate]; decide
theorem witness_FaultRepeats : step (withSp 0x2300 16) = .fault .stackOverflow ∧
    ∀ op ∈ [HostOp.step, .tick, .setKey 15 true], op = .step ∨ op = .tick ∨ ∃ k b, op = .setKey k b := by
  refine ⟨rfl, fun op h => ?_⟩
  simp only [List.mem_cons, List.not_mem_nil, or_false] at h
  rcases h with rfl | rfl | rfl <;> simp
theorem witness_Clock : assertedOps { noPins with step := true, ldStart := true } > 1 ∧ assertedOps noPins = 0 ∧
    assertedOps { noPins with rst := true } = 1 ∧ assertedOps { noPins with tick := true } = 1 ∧
    assertedOps { noPins with keyWe := true } = 1 ∧ assertedOps { noPins with step := true } = 1 ∧
    (∀ x nn, State.reset.mode = .running → decodeWord (wordAtPc State.reset) ≠ some (.rndVxByte x nn)) ∧
    decodeWord (wordAtPc (at_ 0xCFFF State.reset)) = some (.rndVxByte 15 0xFF) :=
  ⟨by decide, by decide, by decide, by decide, by decide, by decide,
    fun x nn _ => by rw [show decodeWord (wordAtPc State.reset) = none by decide]; nofun, by decide⟩
theorem witness_Clock_outputs : ∃ t o, clock noPins (idle { waiting 3 [] [] with st := 1 }) = some (t, o) := ⟨_, _, rfl⟩
theorem witness_LoadPinsWriteOnlyInALoad : (∃ t o, clock startPins (idle storing) = some (t, o) ∧
      memRead t.core 0x200 ≠ memRead storing 0x200) ∧
    (∃ t o, clock { noPins with ldWe := true, ldAddr := 0xFFF, ldData := 1 } (loading 3583) = some (t, o) ∧
      memRead t.core 0xFFF ≠ memRead (loading 3583).core 0xFFF) := ⟨⟨_, _, rfl, by decide⟩, _, _, rfl, by decide⟩

end Sys2Proof.Tests
end

section
/-! PROOFS. What every instruction, Step and operation of the host keeps (spec/10_state.md): the obligations O10 to O14, O16,
O17, O23, O48 to O50, O52 and O54. `Effect` says once what an instruction that completes can have done; the frame, the
registers, the invariant and the access matrix are read off from it. -/

open Sys2Proof Sys2Proof.Machine Sys2Proof.Spec

namespace Sys2Proof.Proofs

/-! ## What an instruction that completes has done -/

/-- The shapes of an instruction's next state. Values that no statement of this family speaks of are left open. -/
inductive Effect (s : State) : Instr → State → Prop
  | blank : Effect s .cls (advance { s with display := blankDisplay })
  | pop (n : Fin 17) (a : Half) : Effect s .ret (setPc { s with sp := n } a)
  | push (nnn : Addr) (n : Fin 17) (st : Vector Half 16) (a : Half) :
      Effect s (.callAddr nnn) (setPc { s with stack := st, sp := n } a)
  | jump (i : Instr) (a : Half) (hp : matrixParts i = [.pc]) : Effect s i (setPc s a)
  | write (i : Instr) (x : Nibble) (b : Byte) (hp : matrixParts i = [.v, .pc]) (hx : MatrixReg i x)
      (hf : ¬ WritesFlag i) : Effect s i (advance (setV s x b))
  | writeFlag (i : Instr) (x : Nibble) (b : Byte) (c : Bool) (hp : matrixParts i = [.v, .pc]) (hx : MatrixReg i x)
      (hvf : MatrixReg i vf) : Effect s i (advance (setFlag (setV s x b) c))
  | load (x : Nibble) (bs : List Byte) (hl : bs.length = x.toNat + 1) :
      Effect s (.ldVxMem x) (advance (loadRun s bs))
  | random (x : Nibble) (nn b : Byte) : Effect s (.rndVxByte x nn) (advance (setV (drawn s) x b))
  | draw (x y n : Nibble) (d : Display) (c : Bool) :
      Effect s (.drwVxVyN x y n) (advance (setFlag { s with display := d } c))
  | index (i : Instr) (a : Half) (hp : matrixParts i = [.i, .pc]) (ha : a.toNat < 4096) :
      Effect s i (advance (setI s a))
  | store (i : Instr) (bs : List Byte) (hp : matrixParts i = [.mem, .pc]) : Effect s i (advance (storeRun s bs))
  | delay (x : Nibble) (b : Byte) : Effect s (.ldDTVx x) (advance { s with dt := b })
  | sound (x : Nibble) (b : Byte) : Effect s (.ldSTVx x) (advance { s with st := b })
  | wait (x : Nibble) : Effect s (.ldVxK x) { s with mode := .awaitingKey x, kp := s.k }

/-- An instruction completes with one of the effects, or faults; it never ends in a refusal (R88). -/
def Ends (i : Instr) (s : State) : Prop :=
  (∃ t, exec i s = .next t ∧ Effect s i t) ∨ ∃ f, exec i s = .fault f

theorem Ends.of_next {i : Instr} {s t : State} (h : exec i s = .next t) (hE : Effect s i t) : Ends i s :=
  .inl ⟨t, h, hE⟩

theorem Ends.of_skipWhen {i : Instr} {s : State} {c : Bool} (h : exec i s = skipWhen c s)
    (hp : matrixParts i = [.pc]) : Ends i s :=
  .of_next h (skipIf_eq c s ▸ .jump i _ hp)

theorem exec_ret_of_none {s : State} (h : pop? s = none) : exec .ret s = .fault .stackUnderflow := by
  simp only [exec, execRet, h]; rfl

theorem exec_ret_of_some {s : State} {r : Half × State} (h : pop? s = some r) :
    exec .ret s = .next (setPc r.2 r.1) := by
  simp only [exec, execRet, h]

theorem exec_callAddr_of_none {nnn : Addr} {s : State} (h : push? s (s.pc + 2) = none) :
    exec (.callAddr nnn) s = .fault .stackOverflow := by
  simp only [exec, execCallAddr, h]; rfl

theorem exec_callAddr_of_some {nnn : Addr} {s t : State} (h : push? s (s.pc + 2) = some t) :
    exec (.callAddr nnn) s = .next (setPc t (zextAddr nnn)) := by
  simp only [exec, execCallAddr, h]

theorem Ends.ret (s : State) : Ends .ret s := by
  by_cases h : s.sp.val = 0
  · exact .inr ⟨_, exec_ret_of_none (pop?_empty s h)⟩
  · obtain ⟨n, hpop, -⟩ := pop?_spec s h
    exact .of_next (exec_ret_of_some hpop) (.pop n _)

theorem Ends.callAddr (nnn : Addr) (s : State) : Ends (.callAddr nnn) s := by
  by_cases h : s.sp.val < 16
  · obtain ⟨n, st, hpush, -⟩ := push?_spec s (s.pc + 2) h
    exact .of_next (exec_callAddr_of_some hpush) (.push nnn n st _)
  · exact .inr ⟨_, exec_callAddr_of_none (push?_full s _ (by omega))⟩

theorem zextAddr_lt (nnn : Addr) : (zextAddr nnn).toNat < 4096 := by
  rw [zextAddr, BitVec.toNat_setWidth]; omega

theorem toNat_ofNat_lt {n : Nat} (h : n < 4096) : (BitVec.ofNat 16 n).toNat < 4096 := by
  rw [BitVec.toNat_ofNat]; omega

theorem exec_ends (i : Instr) (s : State) : Ends i s := by
  cases i with
  | cls => exact .of_next rfl .blank
  | ret => exact .ret s
  | callAddr nnn => exact .callAddr nnn s
  | jpAddr nnn | jpV0Addr nnn => exact .of_next rfl (.jump _ _ rfl)
  | seVxByte x nn | sneVxByte x nn | seVxVy x nn | sneVxVy x nn | skpVx x | sknpVx x => exact .of_skipWhen rfl rfl
  | ldVxByte x nn | addVxByte x nn | ldVxVy x nn | orVxVy x nn | andVxVy x nn | xorVxVy x nn | ldVxDT x =>
    exact .of_next rfl (.write _ x _ rfl rfl id)
  | addVxVy x y | subVxVy x y | subnVxVy x y | shrVx x y | shlVx x y =>
    exact .of_next rfl (.writeFlag _ x _ _ rfl (.inl rfl) (.inr rfl))
  | rndVxByte x nn => exact .of_next rfl (.random x nn _)
  | drwVxVyN x y n => exact .of_next rfl (.draw x y n _ _)
  | ldIAddr nnn => exact .of_next rfl (.index _ _ rfl (zextAddr_lt nnn))
  | addIVx x => exact .of_next rfl (.index _ _ rfl (toNat_ofNat_lt (Nat.mod_lt _ (by decide))))
  | ldFVx x =>
    have hglyph : fontBase + fontStride * (lowNibble (getV s x)).toNat < 4096 := by
      simp only [fontBase, fontStride]; omega
    exact .of_next rfl (.index _ _ rfl (toNat_ofNat_lt hglyph))
  | ldBVx x | ldMemVx x => exact .of_next rfl (.store _ _ rfl)
  | ldVxMem x => exact .of_next rfl (.load x _ (readRun_length s _))
  | ldDTVx x => exact .of_next rfl (.delay x _)
  | ldSTVx x => exact .of_next rfl (.sound x _)
  | ldVxK x => exact .of_next rfl (.wait x)

/-- The inversion of `exec`: every fact about a completed instruction is read off from the effect. -/
theorem effect_of_exec {i : Instr} {s t : State} (h : exec i s = .next t) : Effect s i t := by
  rcases exec_ends i s with ⟨u, hu, hE⟩ | ⟨f, hf⟩
  · cases h.symm.trans hu; exact hE
  · cases h.symm.trans hf

/-! ## What an effect leaves unchanged (R31) -/

theorem Effect.frame {i : Instr} {s t : State} (h : Effect s i t) : UnchangedExcept (matrixParts i) s t := by
  cases h with
  | blank | pop | push | random | draw | delay | sound | wait =>
    simp [UnchangedExcept, matrixParts, getV, memRead]
  | jump _ _ hp | write _ _ _ hp | writeFlag _ _ _ _ hp | index _ _ hp =>
    simp [UnchangedExcept, hp]
  | load x bs => rw [loadRun_eq]; simp [UnchangedExcept, matrixParts, memRead]
  | store _ bs hp => rw [storeRun_eq]; simp [UnchangedExcept, hp, getV]

theorem Effect.getV_eq {i : Instr} {s t : State} (h : Effect s i t) (r : Nibble) (hr : ¬ MatrixReg i r) :
    getV t r = getV s r := by
  cases h with
  | blank | pop | push | jump | index | delay | sound | wait => rfl
  | store _ bs => rw [storeRun_eq]; rfl
  | write _ x b _ hx =>
    have hrx : r ≠ x := fun e => hr (e ▸ hx)
    simp [getV_setV, hrx]
  | writeFlag _ x b c _ hx hvf =>
    have hrx : r ≠ x := fun e => hr (e ▸ hx)
    have hrf : r ≠ vf := fun e => hr (e ▸ hvf)
    simp [getV_setV, getV_setFlag, hrx, hrf]
  | random x nn b =>
    have hrx : r ≠ x := hr
    simp [getV_setV, hrx]
  | draw x y n d c =>
    have hrf : r ≠ vf := hr
    rw [getV_advance, getV_setFlag, if_neg hrf]; rfl
  | load x bs hl =>
    have hrx : ¬ r.toNat ≤ x.toNat := hr
    rw [getV_advance, getV_loadRun s bs r (by omega), List.getD_eq_default _ _ (by omega)]

theorem v_written_of_writesFlag {i : Instr} (h : WritesFlag i) : .v ∈ matrixParts i := by
  cases i with
  | addVxVy | subVxVy | subnVxVy | shrVx | shlVx | drwVxVyN => simp [matrixParts]
  | _ => exact h.elim

/-- The flag writers leave a flag's value in VF (R12). -/
theorem Effect.vf_eq_flagByte {i : Instr} {s t : State} (h : Effect s i t) (hi : WritesFlag i) :
    ∃ c, getV t vf = flagByte c := by
  have hv := v_written_of_writesFlag hi
  cases h with
  | writeFlag _ x b c | draw x y n d c => exact ⟨c, by simp [getV_setFlag]⟩
  | write _ _ _ _ _ hf => exact absurd hi hf
  | load | random => exact hi.elim
  | jump _ _ hp | index _ _ hp | store _ _ hp => simp [hp] at hv
  | _ => simp [matrixParts] at hv

theorem Effect.i_lt {i : Instr} {s t : State} (h : Effect s i t) (hs : s.i.toNat < 4096) : t.i.toNat < 4096 := by
  cases h with
  | index _ a _ ha => exact ha
  | load => rw [loadRun_eq]; exact hs
  | store => rw [storeRun_eq]; exact hs
  | _ => exact hs

theorem Effect.mem_wf {i : Instr} {s t : State} (h : Effect s i t) (hs : Memory.wf s.mem) : Memory.wf t.mem := by
  cases h with
  | store _ bs => exact storeRun_wf s bs hs
  | load => rw [loadRun_eq]; exact hs
  | _ => exact hs

theorem exec_frame {i : Instr} {s t : State} (h : exec i s = .next t) : UnchangedExcept (matrixParts i) s t :=
  (effect_of_exec h).frame

/-! ## Which instruction a written part names (R31, read by column) -/

theorem index_writers {i : Instr} (h : .i ∈ matrixParts i) :
    (∃ a, i = .ldIAddr a) ∨ (∃ x, i = .addIVx x) ∨ (∃ x, i = .ldFVx x) := by
  cases i <;> simp_all [matrixParts]

theorem sp_writers {i : Instr} (h : .sp ∈ matrixParts i) : (∃ a, i = .callAddr a) ∨ i = .ret := by
  cases i <;> simp_all [matrixParts]

theorem stack_writers {i : Instr} (h : .stack ∈ matrixParts i) : ∃ a, i = .callAddr a := by
  cases i <;> simp_all [matrixParts]

theorem display_writers {i : Instr} (h : .display ∈ matrixParts i) : i = .cls ∨ ∃ x y n, i = .drwVxVyN x y n := by
  cases i <;> simp_all [matrixParts]

theorem dt_writers {i : Instr} (h : .dt ∈ matrixParts i) : ∃ x, i = .ldDTVx x := by
  cases i <;> simp_all [matrixParts]

theorem st_writers {i : Instr} (h : .st ∈ matrixParts i) : ∃ x, i = .ldSTVx x := by
  cases i <;> simp_all [matrixParts]

theorem mode_writers {i : Instr} (h : .mode ∈ matrixParts i) : ∃ x, i = .ldVxK x := by
  cases i <;> simp_all [matrixParts]

theorem rng_writers {i : Instr} (h : .rng ∈ matrixParts i) : ∃ x b, i = .rndVxByte x b := by
  cases i <;> simp_all [matrixParts]

/-- The latch is the host's to write (R18). -/
theorem k_not_written (i : Instr) : .k ∉ matrixParts i := by
  cases i <;> simp [matrixParts]

theorem mode_eq_of_exec {i : Instr} {s t : State} (h : exec i s = .next t) (hi : ∀ x, i ≠ .ldVxK x) :
    t.mode = s.mode := by
  obtain ⟨-, -, -, -, -, -, -, -, -, -, -, hmode, -⟩ := exec_frame h
  exact hmode.resolve_left fun hm => (mode_writers hm).elim hi

theorem mode_of_ldVxK {x : Nibble} {s t : State} (h : exec (.ldVxK x) s = .next t) : t.mode = .awaitingKey x := by
  cases h; rfl

/-- VF may change only where it is a flag or an ordinary destination (R12). -/
theorem flag_or_named_of_matrixReg_vf {i : Instr} (h : MatrixReg i vf) : WritesFlag i ∨ NamesVf i := by
  cases i with
  | ldVxMem x =>
    have hx : x.toNat ≤ (15 : Nibble).toNat := Nat.le_of_lt_succ x.isLt
    exact .inr (BitVec.eq_of_toNat_eq (Nat.le_antisymm hx h))
  | addVxVy | subVxVy | subnVxVy | shrVx | shlVx | drwVxVyN => exact .inl trivial
  | ldVxByte | addVxByte | ldVxVy | orVxVy | andVxVy | xorVxVy | rndVxByte | ldVxDT => exact .inr h.symm
  | _ => exact h.elim

/-! ## A Step in mode Running -/

/-- The word at PC, as the statements write it, is the word fetched (R41). -/
theorem wordAtPc_eq_fetchWord (s : State) : wordAtPc s = fetchWord s := by
  rw [fetchWord, joinBytes_eq_ofNat, wordAtPc, memRead_mod, memRead_mod]

theorem exec_of_step {s t : State} (hr : s.mode = .running) (h : step s = .next t) :
    ∃ i, decodeWord (wordAtPc s) = some i ∧ exec i s = .next t := by
  rw [wordAtPc_eq_fetchWord]
  rcases step_next_cases s t h with ⟨w, hw, -⟩ | ⟨-, hi⟩
  · cases hr.symm.trans hw
  · exact hi

/-! ## The invariant (R13, R14, R26) -/

theorem waits_of_running {s : State} (h : s.mode = .running) : WaitsAtItsInstruction s :=
  fun _ hw => by cases h.symm.trans hw

theorem inv_reset : Inv State.reset := ⟨reset_mem_wf, by decide, waits_of_running rfl⟩

/-- The invariant speaks of memory, I, PC and MODE alone. -/
theorem inv_congr {s t : State} (h : Inv s) (hmem : t.mem = s.mem) (hi : t.i = s.i) (hpc : t.pc = s.pc)
    (hmode : t.mode = s.mode) : Inv t := by
  refine ⟨hmem ▸ h.mem, hi ▸ h.i, fun w hw => ?_⟩
  rw [fetch_ok_iff, fetchWord_congr s t hpc (fun a => by rw [memRead, hmem, memRead]), ← fetch_ok_iff]
  exact h.wait w (hmode ▸ hw)

theorem inv_of_awaitStep {w : Nibble} {s t : State} (h : Inv s) (ht : awaitStep w s = .next t) : Inv t := by
  rcases awaitStep_cases w s with ⟨-, he⟩ | ⟨k, -, he⟩ <;> cases ht.symm.trans he
  · exact inv_congr h rfl rfl rfl rfl
  · exact ⟨h.mem, h.i, waits_of_running rfl⟩

/-- An instruction that completes enters a wait only as the `LD Vt,K` fetched, and PC stays at it (R145). -/
theorem waits_of_exec {i : Instr} {s t : State} (hr : s.mode = .running) (hd : decodeWord (fetchWord s) = some i)
    (h : exec i s = .next t) : WaitsAtItsInstruction t := by
  by_cases hi : ∃ x, i = .ldVxK x
  · obtain ⟨x, rfl⟩ := hi
    cases h
    intro w hw
    cases hw
    exact (fetch_ok_iff _ _).mpr hd
  · exact waits_of_running ((mode_eq_of_exec h fun x hx => hi ⟨x, hx⟩).trans hr)

theorem inv_of_step {s t : State} (h : Inv s) (ht : step s = .next t) : Inv t := by
  rcases step_next_cases s t ht with ⟨w, -, hw⟩ | ⟨hr, i, hd, he⟩
  · exact inv_of_awaitStep h hw
  · have hE := effect_of_exec he
    exact ⟨hE.mem_wf h.mem, hE.i_lt h.i, waits_of_exec hr hd he⟩

theorem inv_of_load {bytes : List Byte} {t : State} (ht : load bytes = .next t) : Inv t := by
  unfold load at ht
  split at ht
  · cases ht
  · rename_i hlen
    cases ht
    refine ⟨Memory.writeAll_wf bytes _ _ reset_mem_wf ?_, inv_reset.i, waits_of_running rfl⟩
    simp only [Config.maxProg, Config.progBase, Config.memSize] at hlen ⊢
    omega

theorem inv_of_perform {op : HostOp} {s t : State} (h : Inv s) (ht : perform op s = .next t) : Inv t := by
  cases op with
  | step => exact inv_of_step h ht
  | tick | setKey => cases ht; exact inv_congr h rfl rfl rfl rfl
  | reset => cases ht; exact inv_reset
  | load bytes => exact inv_of_load ht

/-- An operation that ends in a fault has written nothing (R153), so it keeps the invariant too. -/
theorem inv_after {s : State} (h : Inv s) (op : HostOp) : Inv (after s op) := by
  unfold after settle
  split
  · exact inv_of_perform h ‹_›
  · exact h
  · exact h

theorem inv_runOps (ops : List HostOp) {s : State} (h : Inv s) : Inv (runOps ops s) := by
  induction ops generalizing s with
  | nil => exact h
  | cons op ops ih => exact ih (inv_after h op)

/-- Settles O11: memory and I from the instruction's effect, the wait from the instruction fetched. -/
theorem stepKeepsInvariant : Obligations.StepKeepsInvariant := fun _ _ => inv_of_step

/-- Settles O13, by induction on the schedule. -/
theorem schedulesKeepInvariant : Obligations.SchedulesKeepInvariant := fun ops _ => inv_runOps ops

/-- Settles O12. -/
theorem resetMeetsInvariant : Obligations.ResetMeetsInvariant := inv_reset

/-! ## Step is total (R88) -/

/-- Settles O10: no Step ends in a refusal, and I stays an address; SP's bound is its type's. -/
theorem stepIsTotal : Obligations.StepIsTotal := by
  intro s hi
  cases hm : s.mode with
  | awaitingKey w =>
    rw [step_awaiting s w hm]
    rcases awaitStep_cases w s with ⟨-, he⟩ | ⟨k, -, he⟩ <;> exact .inl ⟨_, he, hi, by omega⟩
  | running =>
    rw [step_running s hm]
    cases decodeWord (fetchWord s) with
    | none => exact .inr ⟨_, rfl⟩
    | some i =>
      rcases exec_ends i s with ⟨t, ht, hE⟩ | hf
      · exact .inl ⟨t, ht, hE.i_lt hi, by omega⟩
      · exact .inr hf

/-! ## The access matrix and what follows from it (R12, R31) -/

theorem awaitStep_frame {w : Nibble} {s t : State} (h : awaitStep w s = .next t) :
    UnchangedExcept [.v, .pc, .kp, .mode] s t ∧ ∀ r, r ≠ w → getV t r = getV s r := by
  rcases awaitStep_cases w s with ⟨-, he⟩ | ⟨k, -, he⟩ <;> cases h.symm.trans he
  · exact ⟨by simp [UnchangedExcept, memRead], fun r _ => rfl⟩
  · refine ⟨by simp [UnchangedExcept, memRead], fun r hr => ?_⟩
    exact (getV_setV s w r (zextKey k)).trans (if_neg hr)

/-- Settles O14. -/
theorem accessMatrix : Obligations.AccessMatrix := by
  refine ⟨fun i s t h => ⟨exec_frame h, (effect_of_exec h).getV_eq⟩, fun w s t hw h => ?_, fun s t h => ?_,
    fun k b s t h => ?_⟩
  · exact awaitStep_frame (step_awaiting s w hw ▸ h)
  · cases h; simp [UnchangedExcept, getV, memRead]
  · cases h; simp [UnchangedExcept, getV, memRead]

/-- Settles O16: the flag writers by their effect, the others by the registers the matrix names. -/
theorem flagWriters : Obligations.FlagWriters := by
  intro i s t h
  have hE := effect_of_exec h
  refine ⟨fun hw => ?_, fun hw hn => hE.getV_eq 15 fun hm => ?_⟩
  · obtain ⟨c, hc⟩ := hE.vf_eq_flagByte hw
    cases c
    · exact .inl hc
    · exact .inr hc
  · exact (flag_or_named_of_matrixReg_vf hm).elim hw hn

/-- Settles O17: the access matrix, read by column for the instruction at PC. -/
theorem onlyNamedInstructionsChange : Obligations.OnlyNamedInstructionsChange := by
  intro s t hr h
  obtain ⟨i, hd, he⟩ := exec_of_step hr h
  obtain ⟨-, hi, -, hsp, hstack, -, hdisplay, hdt, hst, hk, -, hmode, hrng⟩ := exec_frame he
  simp only [hd, Option.some.injEq]
  exact ⟨fun hne => index_writers (hi.resolve_right hne), fun hne => sp_writers (hsp.resolve_right hne),
    fun hne => stack_writers (hstack.resolve_right hne),
    fun r c _ _ hne => display_writers (hdisplay.resolve_right fun e => hne (e r c)),
    fun hne => dt_writers (hdt.resolve_right hne), fun hne => st_writers (hst.resolve_right hne),
    hk.resolve_left (k_not_written i), fun hne => mode_writers (hmode.resolve_right hne),
    fun hne => rng_writers (hrng.resolve_right hne)⟩

/-! ## The key wait's state machine (R147) -/

theorem mode_of_awaitStep {w : Nibble} {s t : State} (h : awaitStep w s = .next t) :
    ((∃ k, NewKey s k) ∧ t.mode = .running) ∨ ((∀ k, ¬ NewKey s k) ∧ t.mode = s.mode) := by
  rcases awaitStep_cases w s with ⟨hn, he⟩ | ⟨k, hk, he⟩ <;> cases h.symm.trans he
  · exact .inr ⟨(newKey?_eq_none s).mp hn, rfl⟩
  · obtain ⟨hnow, hbefore, -⟩ := newKey?_eq_some s k hk
    exact .inl ⟨⟨k, hnow, hbefore⟩, rfl⟩

theorem mode_of_load {bytes : List Byte} {t : State} (h : load bytes = .next t) : t.mode = .running := by
  unfold load at h
  split at h
  · cases h
  · cases h; rfl

/-- Settles O48. -/
theorem keyWaitStateMachine : Obligations.KeyWaitStateMachine := by
  refine ⟨fun s t hr h => ?_, fun w s t hw h => ?_, fun _ => rfl, fun _ _ _ => rfl, fun _ => rfl,
    fun _ _ _ => mode_of_load⟩
  · obtain ⟨i, hd, he⟩ := exec_of_step hr h
    simp only [hd, Option.some.injEq, ne_eq]
    refine ⟨fun x hx => ?_, fun hx => (mode_eq_of_exec he hx).trans hr⟩
    subst hx
    exact mode_of_ldVxK he
  · rcases mode_of_awaitStep (step_awaiting s w hw ▸ h) with ⟨hk, hm⟩ | ⟨hk, hm⟩
    · exact ⟨fun _ => hm, fun hno => absurd hk (not_exists.mpr hno)⟩
    · exact ⟨fun hex => absurd hex (not_exists.mpr hk), fun _ => hm.trans hw⟩

/-! ## What no instruction reads: ST, and KP while Running (R17, R23) -/

/-- The state with another sound timer and another snapshot. -/
def withStKp (b : Byte) (q : Keys) (s : State) : State := { s with st := b, kp := q }

@[simp] theorem withStKp_pc (b : Byte) (q : Keys) (s : State) : (withStKp b q s).pc = s.pc := rfl

theorem storeRun_withStKp (b : Byte) (q : Keys) (s : State) (bs : List Byte) :
    storeRun (withStKp b q s) bs = withStKp b q (storeRun s bs) :=
  List.foldl_hom (withStKp b q) fun _ _ => rfl

theorem loadRun_withStKp (b : Byte) (q : Keys) (s : State) (bs : List Byte) :
    loadRun (withStKp b q s) bs = withStKp b q (loadRun s bs) :=
  List.foldl_hom (withStKp b q) fun _ _ => rfl

theorem pop?_withStKp (b : Byte) (q : Keys) (s : State) :
    pop? (withStKp b q s) = (pop? s).map fun r => (r.1, withStKp b q r.2) := by
  unfold pop?
  split
  · rw [dif_pos ‹_›]; rfl
  · rw [dif_neg ‹_›]; rfl

theorem push?_withStKp (b : Byte) (q : Keys) (s : State) (a : Half) :
    push? (withStKp b q s) a = (push? s a).map (withStKp b q) := by
  unfold push?
  split
  · rw [dif_pos ‹_›]; rfl
  · rw [dif_neg ‹_›]; rfl

theorem skipWhen_withStKp (c : Bool) (b : Byte) (q : Keys) (s : State) :
    skipWhen c (withStKp b q s) = .next (withStKp b q (skipIf c s)) := by
  cases c <;> rfl

/-- What an instruction leaves of a changed ST and KP: its own value where the matrix lets it write, else the changed one. -/
def ReadsNeither (b : Byte) (q : Keys) (i : Instr) (s : State) : Prop :=
  (∃ t, exec i s = .next t ∧ exec i (withStKp b q s) =
    .next (withStKp (if .st ∈ matrixParts i then t.st else b) (if .kp ∈ matrixParts i then t.kp else q) t)) ∨
  ∃ f, exec i s = .fault f ∧ exec i (withStKp b q s) = .fault f

theorem readsNeither_of_next {b : Byte} {q : Keys} {i : Instr} {s t : State} (h : exec i s = .next t)
    (h' : exec i (withStKp b q s) = .next (withStKp b q t)) (hst : .st ∉ matrixParts i := by simp [matrixParts])
    (hkp : .kp ∉ matrixParts i := by simp [matrixParts]) : ReadsNeither b q i s :=
  .inl ⟨t, h, by rw [if_neg hst, if_neg hkp]; exact h'⟩

theorem readsNeither_of_skipWhen {b : Byte} {q : Keys} {i : Instr} {s : State} {c : Bool} (h : exec i s = skipWhen c s)
    (h' : exec i (withStKp b q s) = skipWhen c (withStKp b q s)) (hp : matrixParts i = [.pc]) : ReadsNeither b q i s :=
  readsNeither_of_next h (h'.trans (skipWhen_withStKp c b q s)) (by simp [hp]) (by simp [hp])

theorem readsNeither_ret (b : Byte) (q : Keys) (s : State) : ReadsNeither b q .ret s := by
  cases h : pop? s with
  | none => exact .inr ⟨_, exec_ret_of_none h, exec_ret_of_none (by rw [pop?_withStKp, h]; rfl)⟩
  | some r =>
    have hpop : pop? (withStKp b q s) = some (r.1, withStKp b q r.2) := by rw [pop?_withStKp, h]; rfl
    exact readsNeither_of_next (exec_ret_of_some h) (exec_ret_of_some hpop)

theorem readsNeither_callAddr (b : Byte) (q : Keys) (nnn : Addr) (s : State) : ReadsNeither b q (.callAddr nnn) s := by
  have hpush := push?_withStKp b q s (s.pc + 2)
  cases h : push? s (s.pc + 2) with
  | none => exact .inr ⟨_, exec_callAddr_of_none h, exec_callAddr_of_none (by rw [withStKp_pc, hpush, h]; rfl)⟩
  | some t =>
    exact readsNeither_of_next (exec_callAddr_of_some h) (exec_callAddr_of_some (by rw [withStKp_pc, hpush, h]; rfl))
     

/-- No instruction reads ST or KP. -/
theorem exec_readsNeither (b : Byte) (q : Keys) (i : Instr) (s : State) : ReadsNeither b q i s := by
  cases i with
  | ret => exact readsNeither_ret b q s
  | callAddr nnn => exact readsNeither_callAddr b q nnn s
  | seVxByte x nn | sneVxByte x nn | seVxVy x nn | sneVxVy x nn | skpVx x | sknpVx x =>
    exact readsNeither_of_skipWhen rfl rfl rfl
  | ldBVx x | ldMemVx x =>
    exact readsNeither_of_next rfl (congrArg done (storeRun_withStKp b q s _))
  | ldVxMem x =>
    exact readsNeither_of_next rfl (congrArg done (loadRun_withStKp b q s _))
  | _ => exact .inl ⟨_, rfl, rfl⟩ -- the arm is an update of fields, and both runs compute to it

/-- A part that keeps its value where it is not written ends with the value of the state after. -/
theorem ite_written {α : Type} {p : Prop} [Decidable p] {before after : α} (h : p ∨ after = before) :
    (if p then after else before) = after := by
  split
  · rfl
  · exact (h.resolve_left ‹_›).symm

/-- Settles O49: ST is not read; KP, the same in both runs, ends the same by the frame. -/
theorem soundTimerIsNotRead : Obligations.SoundTimerIsNotRead := by
  intro i s b
  rcases exec_readsNeither b s.kp i s with ⟨t, ht, hu⟩ | ⟨f, hs, hu⟩
  · obtain ⟨-, -, -, -, -, -, -, -, hst, -, hkp, -, -⟩ := exec_frame ht
    rw [ite_written hkp] at hu
    refine .inl ⟨t, _, ht, hu, rfl, ?_⟩
    by_cases hw : .st ∈ matrixParts i
    · exact .inl (if_pos hw)
    · exact .inr ⟨hst.resolve_left hw, if_neg hw⟩
  · exact .inr ⟨f, hs, hu⟩

/-- Settles O50: the word fetched is the same, the instruction does not read KP, and ST, the same in both runs, ends the
same by the frame. -/
theorem snapshotIsDeadWhileRunning : Obligations.SnapshotIsDeadWhileRunning := by
  intro s q hr
  have hs := step_running s hr
  have hq : step { s with kp := q } = _ := step_running (withStKp s.st q s) hr
  rw [show fetchWord (withStKp s.st q s) = fetchWord s from rfl] at hq
  cases hd : decodeWord (fetchWord s) with
  | none => rw [hd] at hs hq; exact .inr ⟨_, hs, hq⟩
  | some i =>
    rw [hd] at hs hq
    rw [hs, hq]
    rcases exec_readsNeither s.st q i s with ⟨t, ht, hu⟩ | hf
    · obtain ⟨-, -, -, -, -, -, -, -, hst, -, hkp, hmode, -⟩ := exec_frame ht
      rw [ite_written hst] at hu
      refine .inl ⟨t, _, ht, hu, rfl, ?_⟩
      by_cases hw : .kp ∈ matrixParts i
      · exact .inl (if_pos hw)
      · have hi : ∀ x, i ≠ .ldVxK x := by rintro x rfl; simp [matrixParts] at hw
        exact .inr ⟨hkp.resolve_left hw, if_neg hw, (mode_eq_of_exec ht hi).trans hr⟩
    · exact .inr hf

/-! ## Ticks (R17, R160) -/

theorem countDown_toNat (b : Byte) : (countDown b).toNat = b.toNat - 1 := by
  unfold countDown
  split
  · simp_all
  · bv_omega

/-- Settles O52, by induction on the number of Ticks. -/
theorem ticksRunTimersToZero : Obligations.TicksRunTimersToZero := by
  intro n
  induction n with
  | zero => exact fun s => ⟨rfl, rfl⟩
  | succ n ih =>
    intro s
    obtain ⟨hdt, hst⟩ := ih (tick s)
    rw [tick_dt, countDown_toNat] at hdt
    rw [tick_st, countDown_toNat] at hst
    exact ⟨hdt.trans (by omega), hst.trans (by omega)⟩

/-! ## The display snapshot (R22, R165) -/

theorem displayPixels_eq_flatten (s : State) : displayPixels s = s.display.flatten.toList := by
  unfold displayPixels
  generalize s.display = d
  obtain ⟨⟨rows⟩, h⟩ := d
  simp only [Vector.toList_mk, Vector.flatten_mk, Array.toList_flatten, List.map_toArray, List.map_map,
    List.flatMap_def]
  rfl

/-- Settles O23: pixel `r*64 + c` of the flattened display is column `c` of row `r`. -/
theorem snapshotIsRowMajor : Obligations.SnapshotIsRowMajor := by
  intro s
  rw [displayPixels_eq_flatten]
  refine ⟨Vector.length_toList, fun r c hr hc => ?_⟩
  have hlt : r * 64 + c < 32 * 64 := by omega
  have hrow : (r * 64 + c) / 64 = r % 32 := by omega
  have hcol : (r * 64 + c) % 64 = c % 64 := by omega
  rw [List.getElem?_eq_getElem (by simpa using hlt), Vector.getElem_toList, Vector.getElem_flatten]
  simp only [hrow, hcol, getPixel]

/-! ## Reset (R30, R181) -/

theorem memRead_reset (a : Nat) (ha : a < 4096) : memRead State.reset a = font.getD a 0x00 := by
  rw [memRead, Nat.mod_eq_of_lt ha]; rfl

theorem font_eq_glyphRows : ∀ a < 80, font.getD a 0x00 = BitVec.ofNat 8 (16 * glyphRows.getD a 0) := by decide

/-- Settles O54: the registers, stack, pixels and keys are constant vectors, and memory reads as the font. -/
theorem resetLeaves : Obligations.ResetLeaves := by
  intro s
  refine ⟨State.reset, rfl, fun r => Vector.getElem_replicate _, rfl, rfl, rfl, fun j h => Vector.getElem_replicate _,
    fun r c _ _ => getPixel_blank r c, rfl, rfl, fun k => Vector.getElem_replicate _,
    fun k => Vector.getElem_replicate _, rfl, fun a ha => ?_, fun a ha ha' => ?_⟩
  · exact (memRead_reset a (by omega)).trans (font_eq_glyphRows a ha)
  · exact (memRead_reset a ha').trans (List.getD_eq_default _ _ ha)

end Sys2Proof.Proofs
end

section
/-! PROOFS. Memory, fetch and the encoding they rest on (spec/20_memory.md, spec/30_encoding.md): the obligations O1, O7,
O40, O41, O42 and O59. -/

open Sys2Proof Sys2Proof.Machine Sys2Proof.Spec

namespace Sys2Proof.Proofs

/-! ## Decoding what the encoder gives (R61, R64, R65) -/

/-- The class picks the instruction in most classes; 8, E and F have sub-opcodes, and class 0 two fixed words. -/
theorem decodeWord_encode (i : Instr) : decodeWord (encode i) = some i := by
  cases i with
  | cls | ret => rfl
  | ldVxVy | orVxVy | andVxVy | xorVxVy | addVxVy | subVxVy | subnVxVy | shrVx | shlVx =>
    simp [decodeWord, decodeClass8, encode]
  | skpVx | sknpVx => simp [decodeWord, decodeClassE, encode]
  | ldVxDT | ldDTVx | ldSTVx | addIVx | ldVxK | ldFVx | ldBVx | ldMemVx | ldVxMem =>
    simp [decodeWord, decodeClassF, encode]
  | _ => simp [decodeWord, encode] -- no other instruction of its class

/-- Settles O1: the two bytes make up the word again, and the word decodes to the instruction. -/
theorem decodeOfEncode : Obligations.DecodeOfEncode := by
  intro i rest
  rw [encodeBytes, decode_wordBytes, decodeWord_encode]

/-! ## A store is seen by a later load and by the next fetch (R50, R52, R124, R125) -/

/-- LD [I],Vx stores `V[j]` at every address that is `I + j` modulo 4096 (R124, R126). -/
theorem memRead_of_ldMemVx {x : Nibble} {s t : State} (h : exec (.ldMemVx x) s = .next t) (j : Nibble)
    (hj : j.toNat ≤ x.toNat) {a : Nat} (ha : a % 4096 = (s.i.toNat + j.toNat) % 4096) : memRead t a = getV s j := by
  cases h
  have hlen : (regRun s x).length ≤ 4096 := by rw [regRun_length]; omega
  have hindex : (a + (4096 - s.i.toNat % 4096)) % 4096 = j.toNat := by omega
  have hlt : j.toNat < (regRun s x).length := by rw [regRun_length]; omega
  rw [memRead_advance, memRead_storeRun s _ a hlen, hindex, List.getD_eq_getElem _ _ hlt, regRun_getElem,
    BitVec.ofNat_toNat, BitVec.setWidth_eq]

/-- LD Vx,[I] completes and loads `V[j]` from `I + j` (R125). -/
theorem ldVxMem_loads (x : Nibble) (s : State) :
    ∃ t, exec (.ldVxMem x) s = .next t ∧
      ∀ j : Nibble, j.toNat ≤ x.toNat → getV t j = memRead s (s.i.toNat + j.toNat) := by
  refine ⟨_, rfl, fun j hj => ?_⟩
  have hlt : j.toNat < (readRun s (x.toNat + 1)).length := by rw [readRun_length]; omega
  rw [getV_advance, getV_loadRun s _ j (by rw [readRun_length]; omega), List.getD_eq_getElem _ _ hlt, readRun_getElem]

/-- Of what LD [I],Vx leaves, what a later transfer and the next fetch read beside memory. -/
theorem ldMemVx_i_pc_mode {x : Nibble} {s t : State} (h : exec (.ldMemVx x) s = .next t) :
    t.i = s.i ∧ t.pc = s.pc + 2 ∧ t.mode = s.mode := by
  cases h
  rw [storeRun_eq]
  exact ⟨rfl, rfl, rfl⟩

/-- Settles O41: the load reads, from the same I, the bytes the store left. -/
theorem storeThenLoadReturnsRegisters : Obligations.StoreThenLoadReturnsRegisters := by
  intro x s t u hstore hi hmem
  obtain ⟨v, hload, hv⟩ := ldVxMem_loads x u
  obtain ⟨hti, -, -⟩ := ldMemVx_i_pc_mode hstore
  refine ⟨v, hload, fun j hj => ?_⟩
  rw [hv j hj, hmem, hi, hti]
  exact memRead_of_ldMemVx hstore j hj rfl

/-- Settles O42: the fetch at the new PC reads V0 and V1, the first two bytes stored. -/
theorem storeIsSeenByNextFetch : Obligations.StoreIsSeenByNextFetch := by
  intro x i s t hrun hx hI hstore hword
  obtain ⟨-, hpc, hmode⟩ := ldMemVx_i_pc_mode hstore
  have hhigh : memRead t t.pc.toNat = getV s 0 :=
    memRead_of_ldMemVx hstore 0 (Nat.zero_le _) (by rw [hpc]; exact hI.symm)
  have hlow : memRead t (t.pc.toNat + 1) = getV s 1 :=
    memRead_of_ldMemVx hstore 1 hx (by rw [hpc, Nat.add_mod, ← hI, ← Nat.add_mod]; rfl)
  have hfetch : decodeWord (fetchWord t) = some i := by rw [fetchWord, hhigh, hlow, joinBytes_eq_ofNat, hword]
  rw [step_running t (hmode.trans hrun), hfetch]

/-! ## The pins write memory only in a Load (R53, R172) -/

/-- A clock that brings one of Load's pins is a clock of a Load. -/
theorem clockLoad_of_clock {p : PortIn} {s : PortState} {r : PortState × PortOut} (h : clock p s = some r)
    (hp : (p.ldStart || p.ldWe) = true) : clockLoad p s = some r := by
  have hpos : 0 < assertedOps p := List.count_pos_iff.mpr (by simp [hp])
  have hle : ¬ assertedOps p > 1 := fun hgt => by rw [clock_two p s hgt] at h; cases h
  exact (clock_load p s (by omega) hp).symm.trans h

/-- `ld_we` alone continues a Load under way, at its next address. -/
theorem load_under_way_of_clock {p : PortIn} {s : PortState} {r : PortState × PortOut} (h : clock p s = some r)
    (hwe : p.ldWe = true) (hstart : p.ldStart = false) : ∃ l, s.load = some l ∧ p.ldAddr = l.nextAddr := by
  have hl := clockLoad_of_clock h (by rw [hwe, Bool.or_true])
  cases hw : loadWrite p.ldAddr p.ldData s with
  | none => simp [clockLoad, hwe, hstart, hw] at hl
  | some w => exact loadWrite_under_way _ _ s w hw

/-- Of the clocks that are no clock of a Load, only Reset and Step write memory. -/
theorem mem_eq_of_clock {p : PortIn} {s t : PortState} {o : PortOut} (h : clock p s = some (t, o))
    (hrst : p.rst = false) (hstep : p.step = false) (hload : (p.ldStart || p.ldWe) = false) :
    t.core.mem = s.core.mem := by
  rcases clock_cases p s t o h with
    ⟨-, rfl, -⟩ | ⟨-, ⟨hp, -⟩ | ⟨hp, -⟩ | ⟨-, he⟩ | ⟨-, he⟩ | ⟨hp, -⟩⟩
  · rfl
  · cases hrst.symm.trans hp
  · cases hstep.symm.trans hp
  · cases he; rfl
  · cases he; rfl
  · cases hload.symm.trans hp

/-- Settles O59: without `ld_start`, a byte changes only under `ld_we`, and that needs a Load under way. -/
theorem loadPinsWriteOnlyInALoad : Obligations.LoadPinsWriteOnlyInALoad := by
  intro p s t o h
  refine ⟨fun a hrst hstep hne => ?_, fun hwe hstart => ?_⟩
  · cases hstart : p.ldStart with
    | true => exact .inl rfl
    | false =>
      cases hwe : p.ldWe with
      | true =>
        obtain ⟨l, hl, haddr⟩ := load_under_way_of_clock h hwe hstart
        exact .inr ⟨rfl, l, hl, by rw [haddr]; exact BitVec.toNat_ofNat _ _⟩
      | false =>
        have hmem := mem_eq_of_clock h hrst hstep (by rw [hstart, hwe]; rfl)
        exact absurd (by rw [memRead, hmem, memRead]) hne
  · obtain ⟨l, hl, -⟩ := load_under_way_of_clock h hwe hstart
    rw [hl]
    exact Option.some_ne_none l

/-! ## Step and the effective address (R80, R126) -/

/-- Settles O7: the word of the statement is the word fetched. -/
theorem stepRunsTheDecodedInstruction : Obligations.StepRunsTheDecodedInstruction := by
  intro s
  rw [wordAtPc_eq_fetchWord]
  exact ⟨step_awaiting s, fun hrun hd => by rw [step_running s hrun, hd],
    fun i hrun hd => by rw [step_running s hrun, hd]⟩

/-- Settles O40: a read reduces its address by itself. -/
theorem effectiveAddressWraps : Obligations.EffectiveAddressWraps :=
  fun s _ => ⟨rfl, memRead_mod s _⟩

end Sys2Proof.Proofs
end

section
/-! PROOFS. The encoding (spec/30_encoding.md) and the fault of an illegal word (spec/60_exceptions.md R151): the
obligations O2 to O6 and O8. A word that decodes is the encoding of its instruction, so facts about such words come from
the encoder. -/

open Sys2Proof Sys2Proof.Machine Sys2Proof.Spec

namespace Sys2Proof.Proofs

/-! ## A word put together from a class and its other fields (R61) -/

theorem ofNat_eq_of_toNat_eq {m k : Nat} {b : BitVec m} (h : b.toNat = k) : BitVec.ofNat m k = b := by
  rw [← h, BitVec.ofNat_toNat, BitVec.setWidth_eq]

theorem append_fieldNNN {w : Half} {c : Nat} (hc : (fieldClass w).toNat = c) : BitVec.ofNat 4 c ++ fieldNNN w = w := by
  rw [ofNat_eq_of_toNat_eq hc, ← word_nnn]

theorem append_fieldX_fieldNN {w : Half} {c : Nat} (hc : (fieldClass w).toNat = c) :
    BitVec.ofNat 4 c ++ fieldX w ++ fieldNN w = w := by
  rw [ofNat_eq_of_toNat_eq hc, ← word_xnn]

theorem append_fieldX_fieldY_fieldN {w : Half} {c : Nat} (hc : (fieldClass w).toNat = c) :
    BitVec.ofNat 4 c ++ fieldX w ++ fieldY w ++ fieldN w = w := by
  rw [ofNat_eq_of_toNat_eq hc, ← word_xyn]

/-! ## Encoding what the decoder gives (R61, R64, R65) -/

theorem encode_of_decodeClass0 {w : Half} {i : Instr} (h : decodeClass0 w = some i) : encode i = w := by
  unfold decodeClass0 at h
  split_ifs at h with hcls hret <;> cases h
  · exact hcls.symm
  · exact hret.symm

theorem encode_of_decodeClass8 {x y n : Nibble} {i : Instr} (h : decodeClass8 x y n = some i) :
    encode i = 0x8#4 ++ x ++ y ++ n := by
  unfold decodeClass8 at h
  split at h <;> cases h
  all_goals exact congrArg (0x8#4 ++ x ++ y ++ ·) (ofNat_eq_of_toNat_eq ‹_›)

theorem encode_of_decodeClassE {x : Nibble} {nn : Byte} {i : Instr} (h : decodeClassE x nn = some i) :
    encode i = 0xE#4 ++ x ++ nn := by
  unfold decodeClassE at h
  split at h <;> cases h
  all_goals exact congrArg (0xE#4 ++ x ++ ·) (ofNat_eq_of_toNat_eq ‹_›)

theorem encode_of_decodeClassF {x : Nibble} {nn : Byte} {i : Instr} (h : decodeClassF x nn = some i) :
    encode i = 0xF#4 ++ x ++ nn := by
  unfold decodeClassF at h
  split at h <;> cases h
  all_goals exact congrArg (0xF#4 ++ x ++ ·) (ofNat_eq_of_toNat_eq ‹_›)

theorem encode_of_decodeWord {w : Half} {i : Instr} (h : decodeWord w = some i) : encode i = w := by
  simp only [decodeWord] at h
  split at h
  case h_1 => exact encode_of_decodeClass0 h
  case h_9 hc => exact (encode_of_decodeClass8 h).trans (append_fieldX_fieldY_fieldN hc)
  case h_15 hc => exact (encode_of_decodeClassE h).trans (append_fieldX_fieldNN hc)
  case h_16 hc => exact (encode_of_decodeClassF h).trans (append_fieldX_fieldNN hc)
  case h_2 hc | h_3 hc | h_11 hc | h_12 hc => cases h; exact append_fieldNNN hc
  case h_4 hc | h_5 hc | h_7 hc | h_8 hc | h_13 hc => cases h; exact append_fieldX_fieldNN hc
  case h_14 hc => cases h; exact append_fieldX_fieldY_fieldN hc
  case h_6 hc | h_10 hc =>
    split at h
    case isTrue hn =>
      cases h
      have hw := append_fieldX_fieldY_fieldN hc
      rw [hn] at hw
      exact hw
    case isFalse => cases h
  case h_17 => cases h

/-- Settles O2: the class and the fields the decoder reads make up the word. -/
theorem encodeOfDecode : Obligations.EncodeOfDecode := fun _ _ => encode_of_decodeWord

/-! ## The fields as numbers (R61) -/

theorem fieldClass_toNat (w : Half) : (fieldClass w).toNat = w.toNat / 4096 := by
  have hw := w.isLt
  rw [fieldClass, BitVec.extractLsb'_toNat, Nat.shiftRight_eq_div_pow]
  omega

theorem fieldX_toNat (w : Half) : (fieldX w).toNat = w.toNat / 256 % 16 := by
  rw [fieldX, BitVec.extractLsb'_toNat, Nat.shiftRight_eq_div_pow]

theorem fieldY_toNat (w : Half) : (fieldY w).toNat = w.toNat / 16 % 16 := by
  rw [fieldY, BitVec.extractLsb'_toNat, Nat.shiftRight_eq_div_pow]

theorem fieldN_toNat (w : Half) : (fieldN w).toNat = w.toNat % 16 := BitVec.extractLsb'_toNat 0 4 w

theorem fieldNN_toNat (w : Half) : (fieldNN w).toNat = w.toNat % 256 := BitVec.extractLsb'_toNat 0 8 w

theorem fieldNNN_toNat (w : Half) : (fieldNNN w).toNat = w.toNat % 4096 := BitVec.extractLsb'_toNat 0 12 w

/-! ## The operands (R61, R62) -/

/-- The encoder lays every operand in its field. -/
theorem operandsOf_encode (i : Instr) : OperandsOf (encode i) i := by
  cases i with
  | cls | ret => trivial
  | jpAddr | callAddr | ldIAddr | jpV0Addr => simp [OperandsOf, encode, ← fieldNNN_toNat]
  | seVxByte | sneVxByte | ldVxByte | addVxByte | rndVxByte =>
    simp [OperandsOf, encode, ← fieldX_toNat, ← fieldNN_toNat]
  | seVxVy | sneVxVy | ldVxVy | orVxVy | andVxVy | xorVxVy | addVxVy | subVxVy | subnVxVy | shrVx | shlVx =>
    simp [OperandsOf, encode, ← fieldX_toNat, ← fieldY_toNat]
  | drwVxVyN => simp [OperandsOf, encode, ← fieldX_toNat, ← fieldY_toNat, ← fieldN_toNat]
  | skpVx | sknpVx | ldVxDT | ldDTVx | ldSTVx | addIVx | ldVxK | ldFVx | ldBVx | ldMemVx | ldVxMem =>
    simp [OperandsOf, encode, ← fieldX_toNat]

/-- Settles O4: the word is the encoding of what it decodes to. -/
theorem operandsAreTheFields : Obligations.OperandsAreTheFields := by
  intro w i h
  rw [← encode_of_decodeWord h]
  exact operandsOf_encode i

/-! ## The illegal words (R65, R66) -/

theorem decodeClass0_eq_none_iff (w : Half) : decodeClass0 w = none ↔ w.toNat ≠ 0x00E0 ∧ w.toNat ≠ 0x00EE := by
  unfold decodeClass0
  split_ifs <;> simp_all [BitVec.toNat_eq]

theorem decodeClass8_eq_none_iff (x y n : Nibble) :
    decodeClass8 x y n = none ↔ n.toNat ∈ [0x8, 0x9, 0xA, 0xB, 0xC, 0xD, 0xF] := by
  unfold decodeClass8
  have hlt : n.toNat < 16 := n.isLt
  interval_cases n.toNat <;> simp

theorem decodeClassE_eq_none_iff (x : Nibble) (nn : Byte) : decodeClassE x nn = none ↔ nn.toNat ∉ [0x9E, 0xA1] := by
  unfold decodeClassE
  split <;> simp_all

theorem decodeClassF_eq_none_iff (x : Nibble) (nn : Byte) :
    decodeClassF x nn = none ↔ nn.toNat ∉ [0x07, 0x0A, 0x15, 0x18, 0x1E, 0x29, 0x33, 0x55, 0x65] := by
  unfold decodeClassF
  split <;> simp_all

/-- Settles O5: in a class that has illegal words, its own decoder says which they are. -/
theorem illegalWordsByClass : Obligations.IllegalWordsByClass := by
  intro w
  rw [← fieldClass_toNat, ← fieldN_toNat, ← fieldNN_toNat]
  unfold decodeWord
  split
  case h_1 hc => simp [hc, decodeClass0_eq_none_iff]
  case h_9 hc => simp [hc, decodeClass8_eq_none_iff]
  case h_15 hc => simp [hc, decodeClassE_eq_none_iff]
  case h_16 hc => simp [hc, decodeClassF_eq_none_iff]
  case h_6 hc | h_10 hc => simp [hc, BitVec.toNat_eq]
  case h_17 => -- no class is left
    have hlt : (fieldClass w).toNat < 16 := (fieldClass w).isLt
    interval_cases (fieldClass w).toNat <;> contradiction
  all_goals simp [*] -- the other classes have no illegal word

/-! ## The opcode table (R64) -/

/-- The encoder gives every instruction a word of its own row of the table. -/
theorem encoding_statement (i : Instr) : Laws.Encoding.Statement i := by
  cases i with
  | cls => exact Laws.Encoding.cls
  | ret => exact Laws.Encoding.ret
  | jpAddr a => exact Laws.Encoding.jpAddr a
  | callAddr a => exact Laws.Encoding.callAddr a
  | seVxByte x b => exact Laws.Encoding.seVxByte x b
  | sneVxByte x b => exact Laws.Encoding.sneVxByte x b
  | seVxVy x y => exact Laws.Encoding.seVxVy x y
  | sneVxVy x y => exact Laws.Encoding.sneVxVy x y
  | ldVxByte x b => exact Laws.Encoding.ldVxByte x b
  | addVxByte x b => exact Laws.Encoding.addVxByte x b
  | ldVxVy x y => exact Laws.Encoding.ldVxVy x y
  | orVxVy x y => exact Laws.Encoding.orVxVy x y
  | andVxVy x y => exact Laws.Encoding.andVxVy x y
  | xorVxVy x y => exact Laws.Encoding.xorVxVy x y
  | addVxVy x y => exact Laws.Encoding.addVxVy x y
  | subVxVy x y => exact Laws.Encoding.subVxVy x y
  | subnVxVy x y => exact Laws.Encoding.subnVxVy x y
  | shrVx x y => exact Laws.Encoding.shrVx x y
  | shlVx x y => exact Laws.Encoding.shlVx x y
  | ldIAddr a => exact Laws.Encoding.ldIAddr a
  | jpV0Addr a => exact Laws.Encoding.jpV0Addr a
  | rndVxByte x b => exact Laws.Encoding.rndVxByte x b
  | drwVxVyN x y n => exact Laws.Encoding.drwVxVyN x y n
  | skpVx x => exact Laws.Encoding.skpVx x
  | sknpVx x => exact Laws.Encoding.sknpVx x
  | ldVxDT x => exact Laws.Encoding.ldVxDT x
  | ldDTVx x => exact Laws.Encoding.ldDTVx x
  | ldSTVx x => exact Laws.Encoding.ldSTVx x
  | addIVx x => exact Laws.Encoding.addIVx x
  | ldVxK x => exact Laws.Encoding.ldVxK x
  | ldFVx x => exact Laws.Encoding.ldFVx x
  | ldBVx x => exact Laws.Encoding.ldBVx x
  | ldMemVx x => exact Laws.Encoding.ldMemVx x
  | ldVxMem x => exact Laws.Encoding.ldVxMem x

/-! ## The mnemonic of a word depends on the bits of its row's mask (R64) -/

/-- The mnemonic of the instruction a word decodes to. -/
def wordMnemonic (w : Half) : Option String := (decodeWord w).map Instr.mnemonic

theorem wordMnemonic_eq_some_iff (w : Half) (m : String) :
    wordMnemonic w = some m ↔ ∃ i, decodeWord w = some i ∧ i.mnemonic = m := Option.map_eq_some_iff

theorem decodeClass8_mnemonic (x y x' y' n : Nibble) :
    (decodeClass8 x y n).map Instr.mnemonic = (decodeClass8 x' y' n).map Instr.mnemonic := by
  unfold decodeClass8; split <;> rfl

theorem decodeClassE_mnemonic (x x' : Nibble) (nn : Byte) :
    (decodeClassE x nn).map Instr.mnemonic = (decodeClassE x' nn).map Instr.mnemonic := by
  unfold decodeClassE; split <;> rfl

theorem decodeClassF_mnemonic (x x' : Nibble) (nn : Byte) :
    (decodeClassF x nn).map Instr.mnemonic = (decodeClassF x' nn).map Instr.mnemonic := by
  unfold decodeClassF; split <;> rfl

/-- The classes of one instruction each: the class fixes the mnemonic. -/
theorem wordMnemonic_of_class {w p : Half} (hc : fieldClass w = fieldClass p)
    (hp : fieldClass p ∈ [0x1, 0x2, 0x3, 0x4, 0x6, 0x7, 0xA, 0xB, 0xC, 0xD]) : wordMnemonic w = wordMnemonic p := by
  simp only [List.mem_cons, List.not_mem_nil, or_false] at hp
  unfold wordMnemonic decodeWord
  rw [hc]
  rcases hp with hk | hk | hk | hk | hk | hk | hk | hk | hk | hk <;> rw [hk] <;> rfl

theorem wordMnemonic_of_class_n {w p : Half} (hc : fieldClass w = fieldClass p) (hn : fieldN w = fieldN p)
    (hp : fieldClass p ∈ [0x5, 0x8, 0x9]) : wordMnemonic w = wordMnemonic p := by
  simp only [List.mem_cons, List.not_mem_nil, or_false] at hp
  unfold wordMnemonic decodeWord
  rw [hc, hn]
  rcases hp with hk | hk | hk <;> rw [hk]
  · by_cases h0 : fieldN p = 0 <;> simp [h0, Instr.mnemonic]
  · exact decodeClass8_mnemonic ..
  · by_cases h0 : fieldN p = 0 <;> simp [h0, Instr.mnemonic]

theorem wordMnemonic_of_class_nn {w p : Half} (hc : fieldClass w = fieldClass p) (hnn : fieldNN w = fieldNN p)
    (hp : fieldClass p ∈ [0xE, 0xF]) : wordMnemonic w = wordMnemonic p := by
  simp only [List.mem_cons, List.not_mem_nil, or_false] at hp
  unfold wordMnemonic decodeWord
  rw [hc, hnn]
  rcases hp with hk | hk <;> rw [hk]
  · exact decodeClassE_mnemonic ..
  · exact decodeClassF_mnemonic ..

/-- Each row masks the bits that tell the instructions of its class apart. -/
def MasksItsClass (row : OpcodeRow) : Prop :=
  row.mask = 0xFFFF ∨
  (row.mask = 0xF000 ∧ fieldClass row.pattern ∈ [0x1, 0x2, 0x3, 0x4, 0x6, 0x7, 0xA, 0xB, 0xC, 0xD]) ∨
  (row.mask = 0xF00F ∧ fieldClass row.pattern ∈ [0x5, 0x8, 0x9]) ∨
  (row.mask = 0xF0FF ∧ fieldClass row.pattern ∈ [0xE, 0xF])

theorem opcodeTable_masks : ∀ row ∈ opcodeTable, MasksItsClass row := by
  unfold MasksItsClass; decide

theorem opcodeTable_mnemonics : ∀ row ∈ opcodeTable, wordMnemonic row.pattern = some row.mnemonic := by decide

theorem opcodeTable_nodup : (opcodeTable.map (·.mnemonic)).Nodup := by decide

theorem fieldClass_class0n (c n : Nibble) : fieldClass (c ++ 0#8 ++ n) = c :=
  (extract_append_high (c ++ 0#8) n 8 4).trans ((extract_append_high c 0#8 0 4).trans (extract_all c))

theorem fieldN_class0n (c n : Nibble) : fieldN (c ++ 0#8 ++ n) = n := extract_append_low (c ++ 0#8) n

theorem wordMnemonic_of_row {w : Half} {row : OpcodeRow} (hrow : row ∈ opcodeTable)
    (h : w &&& row.mask = row.pattern) : wordMnemonic w = some row.mnemonic := by
  rw [← opcodeTable_mnemonics row hrow]
  rcases opcodeTable_masks row hrow with hm | ⟨hm, hp⟩ | ⟨hm, hp⟩ | ⟨hm, hp⟩ <;> rw [hm] at h
  · rw [← h]; exact congrArg _ (BitVec.and_allOnes).symm
  · rw [and_classMask] at h
    exact wordMnemonic_of_class (by rw [← h, fieldClass_nnn]) hp
  · rw [and_classNMask] at h
    exact wordMnemonic_of_class_n (by rw [← h, fieldClass_class0n]) (by rw [← h, fieldN_class0n]) hp
  · rw [and_classNNMask] at h
    exact wordMnemonic_of_class_nn (by rw [← h, fieldClass_xnn]) (by rw [← h, fieldNN_xnn]) hp

theorem row_of_decodeWord {w : Half} {i : Instr} (h : decodeWord w = some i) :
    ∃ row ∈ opcodeTable, row.mnemonic = i.mnemonic ∧ w &&& row.mask = row.pattern := by
  obtain ⟨-, row, hrow, hname, hmatch⟩ := encoding_statement i
  refine ⟨row, hrow, hname, ?_⟩
  rw [← encode_of_decodeWord h]
  exact beq_iff_eq.mp hmatch

/-- Settles O3: the encoder's words are those of the rows, and the bits under a row's mask give the mnemonic. -/
theorem decoderAgreesWithOpcodeTable : Obligations.DecoderAgreesWithOpcodeTable := by
  refine ⟨rfl, fun _ _ => row_of_decodeWord,
    fun w row hrow h => (wordMnemonic_eq_some_iff w _).mp (wordMnemonic_of_row hrow h),
    fun w row row' hrow hrow' h h' => ?_⟩
  have hname := (wordMnemonic_of_row hrow h).symm.trans (wordMnemonic_of_row hrow' h')
  exact List.inj_on_of_nodup_map opcodeTable_nodup hrow hrow' (Option.some.inj hname)

/-! ## The fault of an illegal word (R151) -/

/-- The only instructions that fault (R152, R158). -/
theorem exec_fault_cases {i : Instr} {s : State} {f : Fault} (h : exec i s = .fault f) :
    (i = .ret ∧ s.sp.val = 0 ∧ f = .stackUnderflow) ∨
    (∃ nnn, i = .callAddr nnn) ∧ s.sp.val = 16 ∧ f = .stackOverflow := by
  cases i with
  | ret =>
    by_cases hsp : s.sp.val = 0
    · cases (exec_ret_of_none (pop?_empty s hsp)).symm.trans h
      exact .inl ⟨rfl, hsp, rfl⟩
    · obtain ⟨n, hpop, -⟩ := pop?_spec s hsp
      cases (exec_ret_of_some hpop).symm.trans h
  | callAddr nnn =>
    by_cases hsp : s.sp.val < 16
    · obtain ⟨n, st, hpush, -⟩ := push?_spec s (s.pc + 2) hsp
      cases (exec_callAddr_of_some hpush).symm.trans h
    · have hfull : s.sp.val = 16 := by omega
      cases (exec_callAddr_of_none (push?_full s _ hfull)).symm.trans h
      exact .inr ⟨⟨nnn, rfl⟩, hfull, rfl⟩
  | _ => cases h

theorem exec_ne_illegalInstruction (i : Instr) (s : State) : exec i s ≠ .fault .illegalInstruction := fun h => by
  rcases exec_fault_cases h with ⟨-, -, hf⟩ | ⟨-, -, hf⟩ <;> cases hf

/-- A Step raises IllegalInstruction in mode Running alone, and for an illegal word alone. -/
theorem step_illegalInstruction_iff (s : State) :
    step s = .fault .illegalInstruction ↔ s.mode = .running ∧ decodeWord (wordAtPc s) = none := by
  obtain ⟨-, hillegal, -⟩ := stepRunsTheDecodedInstruction s
  refine ⟨fun h => ?_, fun ⟨hrun, hd⟩ => hillegal hrun hd⟩
  obtain ⟨hrun, ⟨hd, -⟩ | ⟨i, -, he⟩⟩ := step_fault_cases s _ h
  · exact ⟨hrun, wordAtPc_eq_fetchWord s ▸ hd⟩
  · exact absurd he (exec_ne_illegalInstruction i s)

/-- Settles O6, by evaluating the decoder on the ten words. -/
theorem wordsOfTheSpecDecode : Obligations.WordsOfTheSpecDecode := by
  unfold Obligations.WordsOfTheSpecDecode; decide

/-- Settles O8: no instruction raises IllegalInstruction, so the decoder alone decides. -/
theorem illegalWordRaises : Obligations.IllegalWordRaises := by
  obtain ⟨hAdd, hFFFF, -⟩ := wordsOfTheSpecDecode
  refine ⟨fun s hrun => ?_, fun s t hwait h => ?_, fun s hrun hw => ?_, fun s hrun hw => ?_, ?_⟩
  · rw [step_illegalInstruction_iff, and_iff_right hrun]
  · cases hwait.symm.trans ((step_illegalInstruction_iff s).mp h).1
  · obtain ⟨-, -, hstep⟩ := stepRunsTheDecodedInstruction s
    exact ⟨_, hstep (.addVxVy 0 0) hrun (hw ▸ hAdd)⟩
  · exact (step_illegalInstruction_iff s).mpr ⟨hrun, hw ▸ hFFFF⟩
  · exact (step_illegalInstruction_iff _).mpr ⟨rfl, by decide⟩

end Sys2Proof.Proofs
end

section
/-! PROOFS. The Step cycle (spec/40_step_cycle.md): the obligations O9 and O15. What a Step's faults are (R150) and the
one write of PC of an instruction that completes (R84), from the inversions of `step`, `awaitStep` and `exec`. -/

open Sys2Proof Sys2Proof.Machine Sys2Proof.Spec

namespace Sys2Proof.Proofs

/-! ## The faults of a Step (R150, R152, R158) -/

/-- Settles O9: a fault is the decoder's or comes from one of the two instructions that fault, and each of the three
arises where it is said to. -/
theorem stepFaultsExactly : Obligations.StepFaultsExactly := by
  intro s f
  obtain ⟨-, hillegal, hexec⟩ := stepRunsTheDecodedInstruction s
  constructor
  · intro h
    obtain ⟨hrun, hfault⟩ := step_fault_cases s f h
    rw [← wordAtPc_eq_fetchWord] at hfault
    refine ⟨hrun, ?_⟩
    obtain hnone | ⟨i, hd, he⟩ := hfault
    · exact .inl hnone
    · obtain ⟨rfl, hret⟩ | ⟨⟨nnn, rfl⟩, hcall⟩ := exec_fault_cases he
      · exact .inr (.inr ⟨hd, hret⟩)
      · exact .inr (.inl ⟨⟨nnn, hd⟩, hcall⟩)
  · rintro ⟨hrun, ⟨hd, rfl⟩ | ⟨⟨nnn, hd⟩, hsp, rfl⟩ | ⟨hd, hsp, rfl⟩⟩
    · exact hillegal hrun hd
    · exact (hexec _ hrun hd).trans (exec_callAddr_of_none (push?_full s _ hsp))
    · exact (hexec _ hrun hd).trans (exec_ret_of_none (pop?_empty s hsp))

/-! ## The write of PC (R84) -/

@[simp] theorem storeRun_pc (s : State) (bs : List Byte) : (storeRun s bs).pc = s.pc := by rw [storeRun_eq]

@[simp] theorem loadRun_pc (s : State) (bs : List Byte) : (loadRun s bs).pc = s.pc := by rw [loadRun_eq]

theorem zextAddr_toNat (nnn : Addr) : (zextAddr nnn).toNat = nnn.toNat :=
  BitVec.toNat_setWidth_of_le (by decide)

/-- The target of `JP V0,addr` is the exact sum: it fits in 16 bits (R93). -/
theorem zextAddr_add_zextByte_toNat (nnn : Addr) (b : Byte) :
    (zextAddr nnn + zextByte b).toNat = nnn.toNat + b.toNat := by
  have hb : (zextByte b).toNat = b.toNat := BitVec.toNat_setWidth_of_le (by decide)
  rw [BitVec.toNat_add, zextAddr_toNat, hb]
  omega

theorem lowNibble_eq_ofNat (b : Byte) : lowNibble b = BitVec.ofNat 4 (b.toNat % 16) :=
  (ofNat_eq_of_toNat_eq (BitVec.extractLsb'_toNat 0 4 b)).symm

/-- The default advance, from a state in which PC is not yet written. -/
theorem pc_of_done {s u t : State} (h : done u = .next t) (hu : u.pc = s.pc) : t.pc = s.pc + 2 := by
  cases h
  rw [advance_pc, hu]

theorem pc_of_skipWhen {s t : State} {c : Bool} {p : Prop} [Decidable p] (h : skipWhen c s = .next t)
    (hc : c = true ↔ p) : t.pc = if p then s.pc + 4 else s.pc + 2 := by
  cases h
  rw [skipIf_pc]
  exact if_congr hc rfl rfl

/-- RET completes only on a stack that is not empty, and PC is the entry popped (R90). -/
theorem pcRule_ret {s t : State} (h : exec .ret s = .next t) : PcRule .ret s t := by
  by_cases hsp : s.sp.val = 0
  · cases (exec_ret_of_none (pop?_empty s hsp)).symm.trans h
  · obtain ⟨n, hpop, -⟩ := pop?_spec s hsp
    cases (exec_ret_of_some hpop).symm.trans h
    exact ⟨hsp, rfl⟩

theorem pcRule_callAddr {nnn : Addr} {s t : State} (h : exec (.callAddr nnn) s = .next t) :
    PcRule (.callAddr nnn) s t := by
  cases hpush : push? s (s.pc + 2) with
  | none => cases (exec_callAddr_of_none hpush).symm.trans h
  | some u =>
    cases (exec_callAddr_of_some hpush).symm.trans h
    exact zextAddr_toNat nnn

theorem pcRule_of_exec {i : Instr} {s t : State} (h : exec i s = .next t) : PcRule i s t := by
  cases i with
  | jpAddr nnn => cases h; exact zextAddr_toNat nnn
  | jpV0Addr nnn => cases h; exact zextAddr_add_zextByte_toNat nnn (getV s 0)
  | callAddr nnn => exact pcRule_callAddr h
  | ret => exact pcRule_ret h
  | seVxByte x nn | seVxVy x y => exact pc_of_skipWhen h beq_iff_eq
  | sneVxByte x nn | sneVxVy x y => exact pc_of_skipWhen h bne_iff_ne
  | skpVx x => exact pc_of_skipWhen h (by rw [lowNibble_eq_ofNat])
  | sknpVx x => exact pc_of_skipWhen h (by rw [lowNibble_eq_ofNat, Bool.not_eq_true'])
  | ldVxK x => cases h; rfl
  | ldBVx x | ldMemVx x => exact pc_of_done h (storeRun_pc s _)
  | ldVxMem x => exact pc_of_done h (loadRun_pc s _)
  | _ => exact pc_of_done h rfl

/-- A waiting Step writes PC exactly when it ends the wait (R146). -/
theorem pc_of_awaitStep {w : Nibble} {s t : State} (hw : s.mode = .awaitingKey w) (h : awaitStep w s = .next t) :
    (t.mode = .running → t.pc = s.pc + 2) ∧ (t.mode ≠ .running → t.pc = s.pc) := by
  rcases awaitStep_cases w s with ⟨-, he⟩ | ⟨k, -, he⟩ <;> cases h.symm.trans he
  · exact ⟨fun hr => absurd (hw.symm.trans hr) nofun, fun _ => rfl⟩
  · exact ⟨fun _ => rfl, fun hr => absurd rfl hr⟩

/-- Settles O15: each instruction's own write of PC, and the two ends of a waiting Step. -/
theorem pcUpdate : Obligations.PcUpdate :=
  ⟨fun _ _ _ => pcRule_of_exec, fun w s _ hw h => pc_of_awaitStep hw (step_awaiting s w hw ▸ h)⟩

end Sys2Proof.Proofs
end

section
/-! PROOFS. Control transfer (spec/41_flow.md): the obligations O24 to O28. What PC and the stack hold after the transfer is
read off from the rules of `pop?`, `push?` and `skipIf`, what is left unchanged from the frame of `exec`. -/

open Sys2Proof Sys2Proof.Machine Sys2Proof.Spec

namespace Sys2Proof.Proofs

/-! ## Jumps and skips (R91, R93 to R98) -/

/-- Settles O25. -/
theorem jumpsSetPc : Obligations.JumpsSetPc := fun nnn s =>
  ⟨⟨_, rfl, zextAddr_toNat nnn, exec_frame (i := .jpAddr nnn) rfl⟩,
    ⟨_, rfl, zextAddr_add_zextByte_toNat nnn (getV s 0), exec_frame (i := .jpV0Addr nnn) rfl⟩⟩

/-- The rule of every skip: the condition it computes decides between the two advances, and PC alone is written (R98). -/
theorem skips_of_skipWhen {i : Instr} {s : State} {c : Bool} {p : Prop} (h : exec i s = skipWhen c s)
    (hparts : matrixParts i = [.pc]) (hc : c = true ↔ p) : Skips i s p := by
  refine ⟨skipIf c s, h, fun hp => ?_, fun hn => ?_, hparts ▸ exec_frame h⟩
  · rw [skipIf_pc, if_pos (hc.mpr hp)]
  · rw [skipIf_pc, if_neg (mt hc.mp hn)]

/-- Settles O28: the four conditions are the comparisons. -/
theorem registerSkips : Obligations.RegisterSkips := fun _ _ _ _ =>
  ⟨skips_of_skipWhen rfl rfl beq_iff_eq, skips_of_skipWhen rfl rfl bne_iff_ne,
    skips_of_skipWhen rfl rfl beq_iff_eq, skips_of_skipWhen rfl rfl bne_iff_ne⟩

/-! ## CALL and RET (R90, R92) -/

/-- Settles O24. -/
theorem retPops : Obligations.RetPops := by
  refine fun s => ⟨fun hsp => ?_, fun hsp => exec_ret_of_none (pop?_empty s hsp)⟩
  obtain ⟨n, hpop, hn⟩ := pop?_spec s hsp
  have hret := exec_ret_of_some hpop
  have hcount : n.val + 1 = s.sp.val := by omega
  exact ⟨_, hret, rfl, hcount, exec_frame hret⟩

/-- Settles O26. -/
theorem callPushes : Obligations.CallPushes := by
  refine fun nnn s => ⟨fun hsp => ?_, fun hsp => exec_callAddr_of_none (push?_full s _ hsp)⟩
  obtain ⟨n, st, hpush, hn, hst⟩ := push?_spec s (s.pc + 2) hsp
  have hcall := exec_callAddr_of_some (nnn := nnn) hpush
  exact ⟨_, hcall, zextAddr_toNat nnn, hn, hst, exec_frame hcall⟩

/-- Settles O27: RET pops the slot that CALL wrote, and the slots below it are those of before the CALL. -/
theorem retResumesAfterCall : Obligations.RetResumesAfterCall := by
  intro nnn s t u hsp hcall husp hustack
  obtain ⟨hpush, -⟩ := callPushes nnn s
  obtain ⟨t', hcall', -, htsp, htstack, -⟩ := hpush hsp
  cases hcall.symm.trans hcall'
  have hcount : u.sp.val = s.sp.val + 1 := husp ▸ htsp
  obtain ⟨hpop, -⟩ := retPops u
  obtain ⟨v, hret, hvpc, hvsp, -, -, -, -, hvstack, -⟩ := hpop (by omega)
  have hslots : v.stack = t.stack := (hvstack.resolve_left (by decide)).trans hustack
  refine ⟨v, hret, ?_, Fin.ext (by omega), fun j hj hlive => ?_⟩
  · simp only [hvpc, hcount, hustack, htstack, Nat.add_sub_cancel, if_true]
  · simp only [hslots, htstack, hlive.ne, if_false]

end Sys2Proof.Proofs
end

section
/-! PROOFS. Register loads, arithmetic, logic, shifts and random (spec/42_alu.md), and the one clock of the pins (R172): the
obligations O29 to O35 and O57. The two ways an instruction hands over a register result, `writeReg` and `writeRegFlag`,
have one rule each; an instruction's proof is then about its value and its flag. -/

open Sys2Proof Sys2Proof.Machine Sys2Proof.Spec

namespace Sys2Proof.Proofs

/-! ## The writes of a register result (R84, R100) -/

theorem getV_advance_setV (s : State) (x r : Nibble) (b : Byte) :
    getV (advance (setV s x b)) r = if r = x then b else getV s r := by
  rw [getV_advance, getV_setV]

theorem flagIs_flagByte {c : Bool} {p : Prop} (h : c = true ↔ p) : FlagIs (flagByte c) p := by
  cases c with
  | true => exact .inl ⟨h.mp rfl, rfl⟩
  | false => exact .inr ⟨fun hp => Bool.false_ne_true (h.mpr hp), rfl⟩

/-- The rule of an instruction that writes `V[x]` and no flag. -/
theorem writesReg_of_writeReg {i : Instr} {s : State} {x : Nibble} {b : Byte} (h : exec i s = writeReg s x b)
    (hparts : matrixParts i = [.v, .pc]) : WritesReg i s x b :=
  ⟨_, h, fun r => getV_advance_setV s x r b, rfl, hparts ▸ exec_frame h⟩

/-- The rule of an instruction that writes `V[x]` and then the flag: the flag is the later write, so VF holds it even when
`x = 15` (R100). -/
theorem writesRegFlag_of_writeRegFlag {i : Instr} {s : State} {x : Nibble} {b : Byte} {c : Bool} {value : Nat}
    {flag : Prop} (h : exec i s = writeRegFlag s x b c) (hparts : matrixParts i = [.v, .pc]) (hvalue : b.toNat = value)
    (hflag : c = true ↔ flag) : WritesRegFlag i s x value flag := by
  have hread (r : Nibble) : getV (advance (setFlag (setV s x b) c)) r =
      if r = 15 then flagByte c else if r = x then b else getV s r := by
    rw [getV_advance, getV_setFlag, getV_setV]; rfl
  refine ⟨_, h, ?_, fun hx => ?_, fun r hr hrx => ?_, rfl, hparts ▸ exec_frame h⟩
  · rw [hread, if_pos rfl]; exact flagIs_flagByte hflag
  · rw [hread, if_neg hx, if_pos rfl, hvalue]
  · rw [hread, if_neg hr, if_neg hrx]

/-! ## Loads, add immediate, logic (R101 to R106) -/

/-- Settles O29. -/
theorem registerLoads : Obligations.RegisterLoads := fun _ _ _ _ =>
  ⟨writesReg_of_writeReg rfl rfl, writesReg_of_writeReg rfl rfl⟩

/-- Settles O30: the sum of two bytes is the sum of their numbers modulo 256. -/
theorem addByteWraps : Obligations.AddByteWraps := by
  intro x nn s
  rw [ofNat_eq_of_toNat_eq (BitVec.toNat_add (getV s x) nn)]
  exact writesReg_of_writeReg rfl rfl

/-- Settles O31. -/
theorem logicOperations : Obligations.LogicOperations := fun _ _ _ =>
  ⟨⟨_, fun _ => BitVec.getLsbD_or, writesReg_of_writeReg rfl rfl⟩,
    ⟨_, fun _ => BitVec.getLsbD_and, writesReg_of_writeReg rfl rfl⟩,
    ⟨_, fun _ => BitVec.getLsbD_xor, writesReg_of_writeReg rfl rfl⟩⟩

/-! ## Add, subtract, shift (R107 to R111) -/

/-- The difference, with the borrow written as one more 256 (R108). -/
theorem toNat_sub_byte (a b : Byte) : (a - b).toNat = (a.toNat + 256 - b.toNat) % 256 := by
  rw [BitVec.toNat_sub]; omega

theorem toNat_shiftRight_one (a : Byte) : (a >>> 1).toNat = a.toNat / 2 := by
  rw [BitVec.toNat_ushiftRight, Nat.shiftRight_eq_div_pow]

theorem toNat_shiftLeft_one (a : Byte) : (a <<< 1).toNat = a.toNat * 2 % 256 := by
  rw [BitVec.toNat_shiftLeft, Nat.shiftLeft_eq]

theorem shiftedOutRight_iff (a : Byte) : shiftedOutRight a = true ↔ a.toNat % 2 = 1 := by
  rw [shiftedOutRight, BitVec.getLsbD, Nat.testBit_zero, decide_eq_true_iff]

theorem shiftedOutLeft_iff (a : Byte) : shiftedOutLeft a = true ↔ a.toNat ≥ 128 := by
  have hmsb : shiftedOutLeft a = a.msb := rfl
  rw [hmsb, BitVec.msb_eq_decide, decide_eq_true_iff]

/-- Settles O32. -/
theorem addSetsCarry : Obligations.AddSetsCarry := fun _ _ _ =>
  writesRegFlag_of_writeRegFlag rfl rfl (BitVec.toNat_add _ _) decide_eq_true_iff

/-- Settles O33. -/
theorem subtractionsSetNoBorrow : Obligations.SubtractionsSetNoBorrow := fun _ _ _ =>
  ⟨writesRegFlag_of_writeRegFlag rfl rfl (toNat_sub_byte _ _) decide_eq_true_iff,
    writesRegFlag_of_writeRegFlag rfl rfl (toNat_sub_byte _ _) decide_eq_true_iff⟩

/-- Settles O34. -/
theorem shiftsSetBitOut : Obligations.ShiftsSetBitOut := fun _ _ _ =>
  ⟨writesRegFlag_of_writeRegFlag rfl rfl (toNat_shiftRight_one _) (shiftedOutRight_iff _),
    writesRegFlag_of_writeRegFlag rfl rfl (toNat_shiftLeft_one _) (shiftedOutLeft_iff _)⟩

/-! ## Random (R112) -/

/-- Settles O35: the byte is the one the generator gives next, which depends on neither operand. -/
theorem rndMasksAByte : Obligations.RndMasksAByte := by
  refine fun s => ⟨drawByte s, fun x nn => ⟨_, rfl, fun r hr => ?_, fun k => ?_, rfl,
    exec_frame (i := .rndVxByte x nn) rfl⟩⟩
  · rw [rndWith, getV_advance_setV, if_neg hr, getV_drawn]
  · rw [rndWith, getV_advance_setV, if_pos rfl, BitVec.getLsbD_and]

/-! ## One clock of the pins (R170, R172) -/

/-- RND at the pins writes its register as a load of the masked byte does, so it has that load's frame: no generator is
advanced. -/
theorem rndWith_frame (r : Byte) (x : Nibble) (nn : Byte) (s : State) :
    UnchangedExcept [.v, .pc] s (rndWith r x nn s) :=
  exec_frame (i := .ldVxByte x (r &&& nn)) rfl

/-- The pin clock of a Step whose instruction is not RND is the machine's own Step. -/
theorem clock_step_of_not_rnd {p : PortIn} {s : PortState} (h1 : assertedOps p = 1) (hp : p.step = true)
    (h : ∀ x nn, s.core.mode = .running → decodeWord (wordAtPc s.core) ≠ some (.rndVxByte x nn)) :
    clock p s = some (clockOp p (resultCode (perform .step s.core)) (after s.core .step)) := by
  rw [wordAtPc_eq_fetchWord] at h
  rw [clock_step p s h1 hp, portStep_of_not_rnd p.rndIn s.core h]; rfl

/-- The pin clock of a Step that runs RND takes its byte from `rnd_in`. -/
theorem clock_step_of_rnd {p : PortIn} {s : PortState} {x : Nibble} {nn : Byte} (h1 : assertedOps p = 1)
    (hp : p.step = true) (hrun : s.core.mode = .running)
    (hd : decodeWord (wordAtPc s.core) = some (.rndVxByte x nn)) :
    clock p s = some (clockOp p (some 0) (rndWith p.rndIn x nn s.core)) := by
  rw [wordAtPc_eq_fetchWord] at hd
  rw [clock_step p s h1 hp, portStep_of_rnd p.rndIn s.core x nn hrun hd]; rfl

theorem awaiting_iff (s : State) : awaiting s = true ↔ s.mode ≠ .running := by
  unfold awaiting
  cases s.mode <;> simp

/-- Settles O57: the clock of each pin, and what the output pins show. -/
theorem clockPerformsOneOperation : Obligations.ClockPerformsOneOperation := by
  refine fun p s => ⟨clock_two p s, fun h0 => ⟨_, clock_none p s h0⟩, fun h1 hp => ⟨_, clock_rst p s h1 hp⟩,
    fun h1 hp => ⟨_, clock_tick p s h1 hp⟩, fun h1 hp => ⟨_, clock_keyWe p s h1 hp⟩,
    fun h1 hp hne => ⟨_, clock_step_of_not_rnd h1 hp hne, rfl⟩, fun h1 hp x nn hrun hd => ?_, fun t o h => ?_⟩
  · exact ⟨_, _, clock_step_of_rnd h1 hp hrun hd, rfl, rfl, fun r => getV_advance_setV s.core x r _,
      rndWith_frame p.rndIn x nn s.core⟩
  · obtain ⟨r, rfl⟩ := clock_out p s t o h
    exact ⟨awaiting_iff t.core, rfl, bne_iff_ne, rfl⟩

end Sys2Proof.Proofs
end

section
/-! PROOFS. The address register and memory transfers (spec/43_index_memory.md): the obligations O36 to O39.
A write of I and a run of stores have one rule each; a run of loads is read off from what the sections above say of
LD Vx,[I]. -/

open Sys2Proof Sys2Proof.Machine Sys2Proof.Spec

namespace Sys2Proof.Proofs

/-! ## A run of stores at its effective addresses (R42, R126) -/

/-- The offset `memRead_storeRun` gives an address brings back that address. -/
theorem effAddr_offset (s : State) {a : Nat} (ha : a < 4096) :
    effAddr s ((a + (4096 - s.i.toNat % 4096)) % 4096) = a := by
  unfold effAddr Config.memSize
  omega

theorem memRead_storeRun_effAddr (s : State) {bs : List Byte} (hlen : bs.length ≤ 4096) {j : Nat}
    (hj : j < bs.length) : memRead (storeRun s bs) (effAddr s j) = bs[j] := by
  have hoffset : (effAddr s j + (4096 - s.i.toNat % 4096)) % 4096 = j := by
    unfold effAddr Config.memSize
    omega
  rw [memRead_storeRun s bs _ hlen, hoffset, List.getD_eq_getElem _ _ hj]

theorem memRead_storeRun_of_forall_ne (s : State) {bs : List Byte} (hlen : bs.length ≤ 4096) {a : Nat} (ha : a < 4096)
    (hne : ∀ j, j < bs.length → a ≠ effAddr s j) : memRead (storeRun s bs) a = memRead s a := by
  have hbeyond : bs.length ≤ (a + (4096 - s.i.toNat % 4096)) % 4096 :=
    Nat.le_of_not_lt fun hlt => hne _ hlt (effAddr_offset s ha).symm
  rw [memRead_storeRun s bs a hlen, List.getD_eq_default _ _ hbeyond]

/-! ## Stores from `M[I]` on (R123, R124) -/

/-- The rule of an instruction that stores a run of bytes from `M[I]` on. -/
theorem stores_of_storeRun {i : Instr} {s : State} {bs : List Byte} (h : exec i s = done (storeRun s bs))
    (hparts : matrixParts i = [.mem, .pc]) (hlen : bs.length ≤ 4096) :
    ∃ t, exec i s = .next t ∧ (∀ (j : Nat) (hj : j < bs.length), memRead t (effAddr s j) = bs[j]) ∧
      (∀ a, a < 4096 → (∀ j, j < bs.length → a ≠ effAddr s j) → memRead t a = memRead s a) ∧ t.pc = s.pc + 2 ∧
      UnchangedExcept [.mem, .pc] s t :=
  ⟨_, h, fun _ hj => memRead_storeRun_effAddr s hlen hj, fun _ ha hne => memRead_storeRun_of_forall_ne s hlen ha hne,
    pc_of_done rfl (storeRun_pc s bs), hparts ▸ exec_frame h⟩

/-- Settles O38: the run of registers stored has `x + 1` bytes. -/
theorem ldMemStoresRegisters : Obligations.LdMemStoresRegisters := by
  intro x s
  have hlen : (regRun s x).length ≤ 4096 := by rw [regRun_length]; omega
  obtain ⟨t, hexec, -, hkept, hpc, hframe⟩ := stores_of_storeRun (i := .ldMemVx x) (s := s) rfl rfl hlen
  rw [regRun_length] at hkept
  exact ⟨t, hexec, fun j hj => memRead_of_ldMemVx hexec j hj (effAddr_mod s j.toNat),
    fun a ha hne => hkept a ha fun j hj => hne j (Nat.le_of_lt_succ hj), hpc, hframe⟩

theorem decimalDigits_length (b : Byte) : (decimalDigits b).length = 3 := rfl

/-- Settles O37: each digit of a byte fits in a byte. -/
theorem ldBStoresDigits : Obligations.LdBStoresDigits := by
  intro x s
  have hlen : (decimalDigits (getV s x)).length ≤ 4096 := by rw [decimalDigits_length]; decide
  obtain ⟨t, hexec, hstored, hkept, hpc, hframe⟩ := stores_of_storeRun (i := .ldBVx x) (s := s) rfl rfl hlen
  have hlt : (getV s x).toNat < 256 := (getV s x).isLt
  have hdigit {j n : Nat} (hj : j < 3) (hn : n < 256) (hb : (decimalDigits (getV s x))[j] = BitVec.ofNat 8 n) :
      (memRead t (effAddr s j)).toNat = n := by
    rw [hstored j hj, hb, BitVec.toNat_ofNat, Nat.mod_eq_of_lt hn]
  exact ⟨t, hexec, hdigit (by decide) (by omega) rfl, hdigit (by decide) (by omega) rfl,
    hdigit (by decide) (by omega) rfl, hkept, hpc, hframe⟩

/-! ## Loads from `M[I]` on (R125) -/

/-- Settles O39: a register at or below `x` takes its byte of the run, a register above it is not among those written. -/
theorem ldVxMemLoadsRegisters : Obligations.LdVxMemLoadsRegisters := by
  intro x s
  obtain ⟨t, hexec, hloaded⟩ := ldVxMem_loads x s
  refine ⟨t, hexec, fun j => ?_, pcRule_of_exec hexec, exec_frame hexec⟩
  split
  next hj => rw [hloaded j hj, memRead_mod]
  next hj => exact (effect_of_exec hexec).getV_eq j hj

/-! ## The writes of I (R120 to R122) -/

/-- The rule of an instruction that writes I. -/
theorem writesI_of_setI {i : Instr} {s : State} {a : Half} {value : Nat} (h : exec i s = done (setI s a))
    (hparts : matrixParts i = [.i, .pc]) (hvalue : a.toNat = value) :
    ∃ t, exec i s = .next t ∧ t.i.toNat = value ∧ t.pc = s.pc + 2 ∧ UnchangedExcept [.i, .pc] s t :=
  ⟨_, h, hvalue, rfl, hparts ▸ exec_frame h⟩

/-- The sum of R121 is below 4096, so I holds it as it is. -/
theorem wrappedSum_toNat (n : Nat) : (BitVec.ofNat 16 (n % Config.memSize)).toNat = n % 4096 := by
  unfold Config.memSize
  rw [BitVec.toNat_ofNat]
  omega

/-- The address of a glyph: five bytes a glyph, from address 0 on (R122). -/
theorem glyphAddr_toNat (b : Byte) :
    (BitVec.ofNat 16 (fontBase + fontStride * (lowNibble b).toNat)).toNat = 5 * (b.toNat % 16) := by
  have hdigit : (lowNibble b).toNat = b.toNat % 16 := BitVec.extractLsb'_toNat 0 4 b
  rw [hdigit, BitVec.toNat_ofNat]
  unfold fontBase fontStride
  omega

/-- Settles O36. -/
theorem addressRegisterWrites : Obligations.AddressRegisterWrites := fun _ nnn _ =>
  ⟨writesI_of_setI rfl rfl (zextAddr_toNat nnn), writesI_of_setI rfl rfl (wrappedSum_toNat _),
    writesI_of_setI rfl rfl (glyphAddr_toNat _)⟩

end Sys2Proof.Proofs
end

section
/-! PROOFS. The display (spec/44_display.md): the obligations O18 to O22 and O60. DRW flips the pixels its sprite lands on
and sets VF when one of them was set; what two draws do together follows from that alone. -/

open Sys2Proof Sys2Proof.Machine Sys2Proof.Spec

namespace Sys2Proof.Proofs

/-- Settles O18. -/
theorem clsBlanksTheDisplay : Obligations.ClsBlanksTheDisplay := fun _ =>
  ⟨_, rfl, fun r c _ _ => getPixel_blank r c, rfl, exec_frame (i := .cls) rfl⟩

/-! ## Flipping a set of pixels -/

/-- From `s` to `t` the pixels of `P` flip and no other pixel changes. -/
def Flips (P : Nat → Nat → Prop) (s t : State) : Prop :=
  ∀ r c, r < 32 → c < 64 → (getPixel t.display r c = true ↔ ¬ (getPixel s.display r c = true ↔ P r c))

/-- Some pixel of `P` has the value `b` on the display `d`. -/
def Meets (P : Nat → Nat → Prop) (d : Display) (b : Bool) : Prop :=
  ∃ r c, r < 32 ∧ c < 64 ∧ P r c ∧ getPixel d r c = b

section
variable {P : Nat → Nat → Prop} {s t u v : State}

/-- Among the pixels that flip, those set before are the ones that go from set to unset. -/
theorem Flips.collides_iff (h : Flips P s t) : Collides s t ↔ Meets P s.display true := by
  refine exists₂_congr fun r c => and_congr_right fun hr => and_congr_right fun hc => ?_
  rw [← Bool.not_eq_true, h r c hr hc]
  tauto

/-- Among the pixels that flip, those unset before are the ones set after. -/
theorem Flips.meets_iff (h : Flips P s t) : Meets P t.display true ↔ Meets P s.display false := by
  refine exists₂_congr fun r c => and_congr_right fun hr => and_congr_right fun hc => and_congr_right fun hP => ?_
  rw [h r c hr hc, ← Bool.not_eq_true]
  tauto

/-- The display before and the pixels that flip determine the display after. -/
theorem Flips.unique (ht : Flips P s t) (hv : Flips P u v) (hd : u.display = s.display) :
    ∀ r c, r < 32 → c < 64 → getPixel v.display r c = getPixel t.display r c := by
  intro r c hr hc
  rw [Bool.eq_iff_iff, hv r c hr hc, ht r c hr hc, hd]

/-- The same pixels flipped twice are as before. -/
theorem Flips.cancel (ht : Flips P s t) (hv : Flips P u v) (hd : u.display = t.display) :
    ∀ r c, r < 32 → c < 64 → getPixel v.display r c = getPixel s.display r c := by
  intro r c hr hc
  rw [Bool.eq_iff_iff, hv r c hr hc, hd, ht r c hr hc]
  tauto

/-- Where no pixel of `P` is set, one is unset exactly when there is one. -/
theorem meets_false_iff {d : Display} (h : ¬ Meets P d true) :
    Meets P d false ↔ ∃ r c, r < 32 ∧ c < 64 ∧ P r c := by
  refine exists₂_congr fun r c => and_congr_right fun hr => and_congr_right fun hc => and_iff_left_of_imp fun hP => ?_
  exact Bool.eq_false_of_not_eq_true fun hset => h ⟨r, c, hr, hc, hP, hset⟩

end

/-! ## Where the sprite lands (R131) -/

section
variable {x y n : Nibble} {s t u : State}

theorem covers_readRun_iff {r c : Nat} (hr : r < 32) (hc : c < 64) :
    Covers (getV s y).toNat (getV s x).toNat (readRun s n.toNat) r c ↔ SpriteSets s x y n r c := by
  have hbyte {j : Nat} (hj : j < n.toNat) : (readRun s n.toNat).getD j 0 = memRead s (s.i.toNat + j) := by
    have hlt : j < (readRun s n.toNat).length := by rwa [readRun_length]
    rw [List.getD_eq_getElem _ _ hlt, readRun_getElem]
  simp only [Covers, SpriteSets, readRun_length, Nat.mod_eq_of_lt hr, Nat.mod_eq_of_lt hc, spriteBit]
  constructor
  · rintro ⟨j, hj, k, hk, hrow, hcol, hbit⟩
    exact ⟨j, k, hj, hk, hrow, hcol, hbyte hj ▸ hbit⟩
  · rintro ⟨j, k, hj, hk, hrow, hcol, hbit⟩
    exact ⟨j, hj, k, hk, hrow, hcol, (hbyte hj).symm ▸ hbit⟩

/-- The bits that meet a set pixel, found by sprite row and bit, are the covered pixels that are set. -/
theorem blit_collision_iff_meets (d : Display) (r c : Nat) {rows : List Byte} (hn : rows.length ≤ 32) :
    (blit d r c rows).2 = true ↔ Meets (Covers r c rows) d true := by
  rw [blit_collision d r c rows hn]
  constructor
  · rintro ⟨j, hj, k, hk, hset, hbit⟩
    exact ⟨(r + j) % 32, (c + k) % 64, Nat.mod_lt _ (by decide), Nat.mod_lt _ (by decide),
      ⟨j, hj, k, hk, Nat.mod_mod _ _, Nat.mod_mod _ _, hbit⟩, (getPixel_mod d _ _).trans hset⟩
  · rintro ⟨r', c', -, -, ⟨j, hj, k, hk, hrow, hcol, hbit⟩, hset⟩
    refine ⟨j, hj, k, hk, ?_, hbit⟩
    rw [← getPixel_mod, ← hrow, ← hcol, getPixel_mod, hset]

/-- Where the sprite lands depends on I, the bytes of memory and the coordinates modulo 64 and 32 only. -/
theorem spriteSets_congr (hi : u.i = s.i) (hmem : ∀ a, memRead u a = memRead s a)
    (hx : (getV u x).toNat % 64 = (getV s x).toNat % 64) (hy : (getV u y).toNat % 32 = (getV s y).toNat % 32) :
    SpriteSets u x y n = SpriteSets s x y n := by
  have hrow (j : Nat) : ((getV u y).toNat + j) % 32 = ((getV s y).toNat + j) % 32 := Nat.ModEq.add_right j hy
  have hcol (k : Nat) : ((getV u x).toNat + k) % 64 = ((getV s x).toNat + k) % 64 := Nat.ModEq.add_right k hx
  unfold SpriteSets
  simp only [hrow, hcol, hi, hmem]

theorem byte_ne_zero_iff (b : Byte) : b ≠ 0 ↔ ∃ k < 8, b.getLsbD (7 - k) = true := by
  constructor
  · intro hne
    by_contra hnone
    refine hne (BitVec.eq_of_getLsbD_eq fun i hi => ?_)
    refine (Bool.eq_false_of_not_eq_true fun hbit => hnone ⟨7 - i, by omega, ?_⟩).trans BitVec.getLsbD_zero.symm
    rwa [Nat.sub_sub_self (by omega)]
  · rintro ⟨k, -, hbit⟩ rfl
    exact Bool.false_ne_true (BitVec.getLsbD_zero.symm.trans hbit)

/-- Every set bit of a sprite row lands somewhere, so a sprite lands nowhere exactly when its rows are zero. -/
theorem exists_spriteSets_iff : (∃ r c, r < 32 ∧ c < 64 ∧ SpriteSets s x y n r c) ↔
    ∃ j, j < n.toNat ∧ memRead s (s.i.toNat + j) ≠ 0 := by
  constructor
  · rintro ⟨r, c, -, -, j, k, hj, hk, -, -, hbit⟩
    exact ⟨j, hj, (byte_ne_zero_iff _).mpr ⟨k, hk, hbit⟩⟩
  · rintro ⟨j, hj, hne⟩
    obtain ⟨k, hk, hbit⟩ := (byte_ne_zero_iff _).mp hne
    exact ⟨_, _, Nat.mod_lt _ (by decide), Nat.mod_lt _ (by decide), j, k, hj, hk, rfl, rfl, hbit⟩

/-! ## What DRW does (R132) -/

theorem sprite_height_le (s : State) (n : Nibble) : (readRun s n.toNat).length ≤ 32 := by
  rw [readRun_length]; omega

theorem drw_completes (x y n : Nibble) (s : State) : ∃ t, exec (.drwVxVyN x y n) s = .next t := ⟨_, rfl⟩

theorem flips_of_drw (h : exec (.drwVxVyN x y n) s = .next t) : Flips (SpriteSets s x y n) s t := by
  cases h
  intro r c hr hc
  rw [← covers_readRun_iff hr hc]
  exact blit_pixel _ _ _ _ (sprite_height_le s n) r c

theorem flag_of_drw (h : exec (.drwVxVyN x y n) s = .next t) :
    FlagIs (getV t 15) (Meets (SpriteSets s x y n) s.display true) := by
  cases h
  rw [getV_advance, getV_setFlag, if_pos (show 15 = vf from rfl)]
  refine flagIs_flagByte ((blit_collision_iff_meets _ _ _ (sprite_height_le s n)).trans ?_)
  exact exists₂_congr fun r c => and_congr_right fun hr => and_congr_right fun hc =>
    and_congr_left' (covers_readRun_iff hr hc)

end

/-- Settles O19. -/
theorem drwDrawsTheSprite : Obligations.DrwDrawsTheSprite := by
  intro x y n s
  obtain ⟨t, hexec⟩ := drw_completes x y n s
  have hflips := flips_of_drw hexec
  have hflag : FlagIs (getV t 15) (Collides s t) := by
    rw [hflips.collides_iff]; exact flag_of_drw hexec
  exact ⟨t, hexec, hflips, hflag, (effect_of_exec hexec).getV_eq,
    pcRule_of_exec hexec, exec_frame hexec⟩

/-! ## Two draws (R133) -/

theorem flagIs_unique {a b : Byte} {p : Prop} (ha : FlagIs a p) (hb : FlagIs b p) : a = b := by
  rcases ha with ⟨hp, rfl⟩ | ⟨hn, rfl⟩ <;> rcases hb with ⟨hp', rfl⟩ | ⟨hn', rfl⟩
  · rfl
  · exact absurd hp hn'
  · exact absurd hp' hn
  · rfl

/-- Settles O22: both draws land on the same pixels of the same display. -/
theorem drawCoordinatesWrap : Obligations.DrawCoordinatesWrap := by
  intro x y n s u hd hi hmem hx hy
  have hsets := spriteSets_congr (n := n) hi hmem hx hy
  obtain ⟨t, ht⟩ := drw_completes x y n s
  obtain ⟨v, hv⟩ := drw_completes x y n u
  have hflips := flips_of_drw hv
  have hflag := flag_of_drw hv
  rw [hsets] at hflips hflag
  rw [hd] at hflag
  exact ⟨t, v, ht, hv, (flips_of_drw ht).unique hflips hd, flagIs_unique hflag (flag_of_drw ht)⟩

/-- Settles O20: the second draw flips the pixels back, and those it finds set are those the first found unset. -/
theorem drawTwiceRestoresTheDisplay : Obligations.DrawTwiceRestoresTheDisplay := by
  intro x y n s t u ht hd hi hmem hx hy
  have hsets := spriteSets_congr (n := n) hi hmem (congrArg (·.toNat % 64) hx) (congrArg (·.toNat % 32) hy)
  obtain ⟨v, hv⟩ := drw_completes x y n u
  have hfirst := flips_of_drw ht
  have hsecond := flips_of_drw hv
  have hflag := flag_of_drw hv
  rw [hsets] at hsecond hflag
  rw [hd, hfirst.meets_iff] at hflag
  exact ⟨v, hv, hfirst.cancel hsecond hd, hflag⟩

/-- Settles O60: with VF = 0 the first draw found no pixel of the sprite set, so it found one unset exactly when the sprite
is not empty. -/
theorem secondDrawAfterCleanDraw : Obligations.SecondDrawAfterCleanDraw := by
  intro x y n s t u ht hclean hd hi hmem hx hy
  obtain ⟨v, hv, hrestored, hflag⟩ := drawTwiceRestoresTheDisplay x y n s t u ht hd hi hmem hx hy
  have hunset : ¬ Meets (SpriteSets s x y n) s.display true := by
    rcases flag_of_drw ht with ⟨-, hone⟩ | ⟨hnone, -⟩
    · exact absurd (hclean.symm.trans hone) (by decide)
    · exact hnone
  refine ⟨v, hv, hrestored, ?_⟩
  rw [← exists_spriteSets_iff, ← meets_false_iff hunset]
  exact hflag

/-- The corner pixel is set, and I points at the byte 0x80 of the font: as a one-row sprite it lands on the corner alone. -/
def cornerSet : State := { State.reset with i := 0x04C, display := setPixel blankDisplay 0 0 true }

/-- Refutes O21: the first draw clears the corner pixel, so the second sets it without a collision and leaves VF = 0, though
the sprite is not empty. -/
theorem not_secondDrawFlagMeansSpriteNotEmpty : ¬ Obligations.SecondDrawFlagMeansSpriteNotEmpty := by
  intro h
  have hflag := h 0 0 1 cornerSet _ { cornerSet with display := blankDisplay } _ rfl (by decide) rfl (fun _ => rfl) rfl rfl
    rfl
  exact absurd (hflag.mpr ⟨0, by decide, by decide⟩) (by decide)

end Sys2Proof.Proofs
end

section
/-! PROOFS. Timer and key instructions, and the Step while waiting for a key (spec/45_timers_keys.md): the obligations O43
to O47. A waiting Step has one equation per outcome, no newly pressed key or a lowest one; the wait without a new key is
the first of them, iterated. -/

open Sys2Proof Sys2Proof.Machine Sys2Proof.Spec

namespace Sys2Proof.Proofs

/-! ## The instructions (R140 to R145) -/

/-- Settles O43. -/
theorem timerTransfers : Obligations.TimerTransfers := fun x _ =>
  ⟨writesReg_of_writeReg rfl rfl, ⟨_, rfl, rfl, rfl, exec_frame (i := .ldDTVx x) rfl⟩,
    ⟨_, rfl, rfl, rfl, exec_frame (i := .ldSTVx x) rfl⟩⟩

/-- Settles O44: the key is the low nibble as a number. -/
theorem keySkips : Obligations.KeySkips := fun _ _ =>
  ⟨skips_of_skipWhen rfl rfl (by rw [lowNibble_eq_ofNat]),
    skips_of_skipWhen rfl rfl (by rw [lowNibble_eq_ofNat, Bool.not_eq_true'])⟩

/-- Settles O45. -/
theorem ldKeyEntersTheWait : Obligations.LdKeyEntersTheWait := fun x _ =>
  ⟨_, rfl, rfl, fun _ => rfl, exec_frame (i := .ldVxK x) rfl⟩

/-! ## A waiting Step (R146) -/

/-- The state after a key check that ends nothing: only the snapshot is taken. -/
def checked (s : State) : State := { s with kp := s.k }

theorem checked_frame (s : State) : UnchangedExcept [.kp] s (checked s) := by
  simp [UnchangedExcept, checked, getV, memRead]

/-- Just after a key check no key is newly pressed, since the latch and the snapshot agree. -/
theorem not_newKey_checked (s : State) (k : Nibble) : ¬ NewKey (checked s) k :=
  fun ⟨hnow, hbefore⟩ => Bool.false_ne_true (hbefore.symm.trans hnow)

section
variable {w : Nibble} {s : State}

theorem step_of_no_newKey (hw : s.mode = .awaitingKey w) (hno : ∀ k, ¬ NewKey s k) : step s = .next (checked s) := by
  rw [step_awaiting s w hw, awaitStep, (newKey?_eq_none s).mpr hno]
  rfl

/-- Of two newly pressed keys of which neither has a lower one, neither is lower, so they are the same. -/
theorem newKey?_of_lowest {k : Nibble} (hk : NewKey s k) (hlow : ∀ j, j.toNat < k.toNat → ¬ NewKey s j) :
    newKey? s = some k := by
  cases hfound : newKey? s with
  | none => exact absurd hk ((newKey?_eq_none s).mp hfound k)
  | some j =>
    obtain ⟨hnow, hbefore, hlow'⟩ := newKey?_eq_some s j hfound
    have hkj : k.toNat ≤ j.toNat := Nat.le_of_not_lt fun hlt => hlow j hlt ⟨hnow, hbefore⟩
    have hjk : j.toNat ≤ k.toNat := Nat.le_of_not_lt fun hlt => hlow' k hlt hk
    rw [BitVec.eq_of_toNat_eq (Nat.le_antisymm hjk hkj)]

theorem step_of_lowest_newKey (hw : s.mode = .awaitingKey w) {k : Nibble} (hk : NewKey s k)
    (hlow : ∀ j, j.toNat < k.toNat → ¬ NewKey s j) :
    step s = .next (advance { setV s w (zextKey k) with mode := .running, kp := s.k }) := by
  rw [step_awaiting s w hw, awaitStep, newKey?_of_lowest hk hlow]

end

theorem zextKey_toNat (k : Nibble) : (zextKey k).toNat = k.toNat := BitVec.toNat_setWidth_of_le (by decide)

/-- Settles O46: the register written is that of a register write, all else is a field of the next state. -/
theorem waitingStep : Obligations.WaitingStep := by
  refine fun w s hw => ⟨fun hno => ?_, fun k hk hlow => ?_⟩
  · exact ⟨_, step_of_no_newKey hw hno, fun _ => rfl, checked_frame s⟩
  · have hstep := step_of_lowest_newKey hw hk hlow
    obtain ⟨-, hregs⟩ := awaitStep_frame (step_awaiting s w hw ▸ hstep)
    refine ⟨_, hstep, hregs, ?_, rfl, rfl, fun _ => rfl, by simp [UnchangedExcept, memRead]⟩
    have hwritten : getV (setV s w (zextKey k)) w = zextKey k := by rw [getV_setV, if_pos rfl]
    exact (congrArg BitVec.toNat hwritten).trans (zextKey_toNat k)

/-! ## A wait without a new key (R146, R148) -/

theorem after_step_of_no_newKey {w : Nibble} {s : State} (hw : s.mode = .awaitingKey w) (hno : ∀ k, ¬ NewKey s k) :
    after s .step = checked s := by
  rw [after, perform, step_of_no_newKey hw hno, settle]

/-- Settles O47, by induction on the number of Steps: after a check the machine still waits, again with no new key. -/
theorem waitHoldsWithoutNewKey : Obligations.WaitHoldsWithoutNewKey := by
  intro w s n hw hno
  induction n generalizing s with
  | zero => exact .refl _ s
  | succ n ih =>
    rw [List.replicate_succ, runOps, List.foldl_cons, after_step_of_no_newKey hw hno]
    exact (checked_frame s).trans (ih (checked s) hw (not_newKey_checked s))

end Sys2Proof.Proofs
end

section
/-! PROOFS. The operations of the host (spec/60_exceptions.md): the obligations O51, O53, O56 and O58. Tick and SetKey
change nothing a fault depends on; a Load at the pins keeps, byte by byte, the state that the operation Load leaves for the
bytes received so far. -/

open Sys2Proof Sys2Proof.Machine Sys2Proof.Spec

namespace Sys2Proof.Proofs

/-! ## Tick and SetKey (R160, R163) -/

/-- Settles O51: the columns Tick has in the access matrix, and the two timers. -/
theorem tickCountsDown : Obligations.TickCountsDown := by
  intro s
  obtain ⟨-, -, hframe, -⟩ := accessMatrix
  exact ⟨tick s, rfl, countDown_toNat s.dt, countDown_toNat s.st, hframe s _ rfl⟩

/-- Settles O53: the column SetKey has in the access matrix, and the key read back. -/
theorem setKeyWritesTheLatch : Obligations.SetKeyWritesTheLatch := by
  intro k b s
  obtain ⟨-, -, -, hframe⟩ := accessMatrix
  exact ⟨setKey k b s, rfl, fun j => getKey_setKey s k j b, hframe k b s _ rfl⟩

/-! ## A fault lasts until Reset or Load (R153, R156) -/

/-- Whether a Step faults, and how, depends on MODE, memory, PC and SP alone. -/
theorem step_fault_congr {s t : State} {f : Fault} (hmode : t.mode = s.mode) (hmem : t.mem = s.mem) (hpc : t.pc = s.pc)
    (hsp : t.sp = s.sp) (h : step s = .fault f) : step t = .fault f := by
  have hword : wordAtPc t = wordAtPc s := by simp only [wordAtPc, memRead, hmem, hpc]
  rw [stepFaultsExactly] at h ⊢
  rw [hmode, hword, hsp]
  exact h

theorem after_step_of_fault {s : State} {f : Fault} (h : step s = .fault f) : after s .step = s := by
  rw [after, perform, h, settle]

/-- Settles O56, by induction on the schedule: a Step that faults writes nothing, and Tick and SetKey write nothing that
the fault depends on. -/
theorem faultRepeatsUntilResetOrLoad : Obligations.FaultRepeatsUntilResetOrLoad := by
  intro ops
  induction ops with
  | nil => exact fun _ _ h _ => h
  | cons op ops ih =>
    intro s f h hops
    obtain ⟨hop, hrest⟩ := List.forall_mem_cons.mp hops
    refine ih (after s op) f ?_ hrest
    obtain rfl | rfl | ⟨k, b, rfl⟩ := hop
    · rwa [after_step_of_fault h]
    · exact step_fault_congr (s := s) rfl rfl rfl rfl h
    · exact step_fault_congr (s := s) rfl rfl rfl rfl h

/-! ## A Load at the pins (R172, R183) -/

theorem writeAll_concat (m : Memory) (a : Nat) (bs : List Byte) (b : Byte) :
    Memory.writeAll m a (bs ++ [b]) = Memory.write (Memory.writeAll m a bs) (a + bs.length) b := by
  induction bs generalizing m a with
  | nil => rfl
  | cons c bs ih =>
    rw [List.cons_append, Memory.writeAll, ih, Memory.writeAll, List.length_cons, Nat.add_assoc, Nat.add_comm 1]

/-- The state after a Reset and a copy of the bytes to 0x200: what the operation Load of bytes that fit leaves (R183). -/
def programmed (bytes : List Byte) : State :=
  { State.reset with mem := Memory.writeAll State.reset.mem Config.progBase bytes }

theorem load_of_fits {bytes : List Byte} (h : bytes.length ≤ Config.maxProg) : load bytes = .next (programmed bytes) :=
  if_neg (Nat.not_lt.mpr h)

theorem load_of_tooLarge {bytes : List Byte} (h : Config.maxProg < bytes.length) : load bytes = .fault .loadTooLarge :=
  if_pos h

/-- The next byte of a program that still fits is stored below the end of memory, so its address does not wrap. -/
theorem memWrite_programmed {sent : List Byte} (h : sent.length < Config.maxProg) (b : Byte) :
    memWrite (programmed sent) (Config.progBase + sent.length) b = programmed (sent ++ [b]) := by
  have hlt : Config.progBase + sent.length < Config.memSize := by
    simp only [Config.progBase, Config.memSize, Config.maxProg] at h ⊢; omega
  rw [memWrite, Nat.mod_eq_of_lt hlt, programmed, programmed, writeAll_concat]

/-- The port in a Load that began in the state `before` and has received the bytes `sent`: the machine is as the operation
Load of those bytes leaves it. -/
def loading (before : State) (sent : List Byte) : PortState :=
  ⟨settle before (load sent), some ⟨before, sent.length⟩⟩

/-- One more byte at the pins is one more byte of the operation Load, the byte too many and every later one included. -/
theorem loadWrite_loading (before : State) (sent : List Byte) (b : Byte) :
    loadWrite (BitVec.ofNat 12 (Config.progBase + sent.length)) b (loading before sent) =
      some (loading before (sent ++ [b]), load (sent ++ [b])) := by
  have hlen : (sent ++ [b]).length = sent.length + 1 := List.length_append
  by_cases hfits : sent.length < Config.maxProg
  · refine (loadWrite_next b _ ⟨before, sent.length⟩ hfits).trans ?_
    have hsent : load sent = .next (programmed sent) := load_of_fits hfits.le
    have hload : load (sent ++ [b]) = .next (programmed (sent ++ [b])) := load_of_fits (by omega)
    rw [PortLoad.nextAddr_toNat _ hfits, hsent, settle, memWrite_programmed hfits, loading, hload, settle, hlen]
  · refine (loadWrite_tooLarge b _ ⟨before, sent.length⟩ hfits).trans ?_
    rw [loading, load_of_tooLarge (by omega), settle, hlen]

/-- `ld_we` alone passes its byte on to the Load under way. -/
theorem clock_of_loadWrite {p : PortIn} {s t : PortState} {r : Result} (h1 : assertedOps p = 1) (hwe : p.ldWe = true)
    (hstart : p.ldStart = false) (h : loadWrite p.ldAddr p.ldData s = some (t, r)) :
    clock p s = some (t, portOut p (resultCode r) t.core) := by
  rw [clock_load p s h1 (by rw [hwe, Bool.or_true])]
  simp only [clockLoad, hwe, hstart, Bool.false_eq_true, if_false, if_true, h]

/-- The pins of a clock that brings byte number `n` of a Load. -/
def bytePin (n : Nat) (b : Byte) : PortIn :=
  { noPins with ldWe := true, ldAddr := BitVec.ofNat 12 (Config.progBase + n), ldData := b }

theorem bytePins_cons (n : Nat) (b : Byte) (bs : List Byte) : bytePins n (b :: bs) = bytePin n b :: bytePins (n + 1) bs :=
  rfl

theorem clock_startPins (s : PortState) :
    clock startPins s = some (loading s.core [], portOut startPins (some 0) State.reset) := rfl

theorem clock_bytePin (before : State) (sent : List Byte) (b : Byte) :
    clock (bytePin sent.length b) (loading before sent) = some (loading before (sent ++ [b]),
      portOut (bytePin sent.length b) (resultCode (load (sent ++ [b]))) (loading before (sent ++ [b])).core) :=
  clock_of_loadWrite rfl rfl rfl (loadWrite_loading before sent b)

/-- The clocks after one that has left a Load with the bytes `sent` received: the Load goes on to its last byte. -/
theorem clocks_bytePins (bytes : List Byte) (before : State) (sent : List Byte) (p : PortIn) (s : PortState) (o : PortOut)
    (h : clock p s = some (loading before sent, o)) (ho : o.result = resultCode (load sent)) :
    ∃ o', clocks p (bytePins sent.length bytes) s = some (loading before (sent ++ bytes), o') ∧
      o'.result = resultCode (load (sent ++ bytes)) := by
  induction bytes generalizing sent p s o with
  | nil => exact ⟨o, by rw [List.append_nil]; exact h, by rw [List.append_nil]; exact ho⟩
  | cons b bs ih =>
    have hnext := ih (sent ++ [b]) _ _ _ (clock_bytePin before sent b) rfl
    rw [List.length_append, List.append_assoc] at hnext
    rw [bytePins_cons, clocks, h]
    exact hnext

/-- Settles O58: `ld_start` leaves a Load that has received no byte, and the clocks after it bring the bytes one by one. -/
theorem loadPinsPerformLoad : Obligations.LoadPinsPerformLoad := by
  intro bytes s
  obtain ⟨o, hclocks, ho⟩ := clocks_bytePins bytes s.core [] startPins s _ (clock_startPins s) rfl
  exact ⟨_, o, hclocks, rfl, ho⟩

end Sys2Proof.Proofs
end

section
/-! PROOFS. The operation Load (spec/70_reset_and_hazards.md): the obligation O55. The copy to 0x200 ends at the latest where
memory ends, so no address wraps: a byte of the program reads back, and every other byte is the one Reset left. -/

open Sys2Proof Sys2Proof.Machine Sys2Proof.Spec

namespace Sys2Proof.Proofs

/-! ## What a program that fits leaves (R183) -/

/-- Below the end of memory a byte is the program's, or the one Reset left. -/
theorem memRead_programmed (bytes : List Byte) {a : Nat} (ha : a < 4096) :
    memRead (programmed bytes) a =
      if 0x200 ≤ a then bytes.getD (a - 0x200) (memRead State.reset a) else memRead State.reset a := by
  rw [memRead, memRead, Nat.mod_eq_of_lt ha]
  exact Memory.read_writeAll bytes State.reset.mem 0x200 a

theorem memRead_programmed_of_lt {bytes : List Byte} (hfits : bytes.length ≤ 3584) {j : Nat} (hj : j < bytes.length) :
    memRead (programmed bytes) (0x200 + j) = bytes[j] := by
  rw [memRead_programmed bytes (by omega), if_pos (Nat.le_add_right _ _), Nat.add_sub_cancel_left,
    List.getD_eq_getElem _ _ hj]

theorem memRead_programmed_of_outside {bytes : List Byte} {a : Nat} (ha : a < 4096)
    (hout : a < 0x200 ∨ 0x200 + bytes.length ≤ a) : memRead (programmed bytes) a = memRead State.reset a := by
  rw [memRead_programmed bytes ha]
  obtain hbelow | habove := hout
  · exact if_neg (Nat.not_le.mpr hbelow)
  · rw [List.getD_eq_default _ _ (by omega), ite_self]

theorem programmed_frame (bytes : List Byte) : UnchangedExcept [.mem] State.reset (programmed bytes) := by
  simp [UnchangedExcept, programmed, getV]

/-! ## The operation Load -/

/-- Settles O55: the length check comes first, so a program that is too large faults before the reset. -/
theorem loadCopiesTheProgram : Obligations.LoadCopiesTheProgram := by
  intro bytes s
  refine ⟨fun hfits => ⟨programmed bytes, load_of_fits hfits, fun _ hj => memRead_programmed_of_lt hfits hj,
    fun _ => memRead_programmed_of_outside, programmed_frame bytes⟩, fun hlarge => ?_⟩
  have hfault : perform (.load bytes) s = .fault .loadTooLarge := load_of_tooLarge hlarge
  exact ⟨hfault, by rw [after, hfault, settle]⟩

end Sys2Proof.Proofs
end
